-- ==== Sys2Proof/Word.lean ====
section
/-! DEFINITION. The bit vectors of SISA-I: the 16-bit word, the numbers of registers and ports, the two
immediate fields, and the two numeric readings of a vector (00_scope.md R5, R7, R9). -/

namespace Sys2Proof

/-- The word, the only data size (00_scope.md R5): registers, memory cells, ports, addresses, instructions. -/
abbrev Word := BitVec 16

/-- The number of a general register, a 3-bit field (10_state.md R21, 30_encoding.md R65). -/
abbrev RegNum := BitVec 3

/-- The address of a port, 8 bits (10_state.md R31, R32). -/
abbrev Port := BitVec 8

/-- The field N6, I[5:0] (30_encoding.md R61). -/
abbrev Imm6 := BitVec 6

/-- The field N8, I[7:0] (30_encoding.md R61). -/
abbrev Imm8 := BitVec 8

/-- `Xu`, the natural reading of a word (00_scope.md R9). -/
abbrev Word.natural (x : Word) : Nat := x.toNat

/-- `Xs`, the two's complement reading of a word (00_scope.md R9). -/
abbrev Word.integer (x : Word) : Int := x.toInt

end Sys2Proof
end

