-- ==== Sys2Proof/Syntax.lean ====
section
/-! DEFINITION. The instructions of SISA-I, one constructor for each row of spec/opcode_table.json: the
22 instructions of 30_encoding.md R66 and the five rows of words that no instruction uses (R70 to R72). -/

namespace Sys2Proof

/-- An instruction with its operand fields, named as in 30_encoding.md R61: `d` the destination register,
`a` and `b` the source registers, `n6` and `n8` the immediates. -/
inductive Instr where
  /-- AND Rd, Ra, Rb (R91). -/
  | and (d a b : RegNum)
  /-- OR Rd, Ra, Rb (R92). -/
  | or (d a b : RegNum)
  /-- XOR Rd, Ra, Rb (R93). -/
  | xor (d a b : RegNum)
  /-- NOT Rd, Ra (R94). -/
  | not (d a : RegNum)
  /-- ADD Rd, Ra, Rb (R95). -/
  | add (d a b : RegNum)
  /-- SUB Rd, Ra, Rb (R96). -/
  | sub (d a b : RegNum)
  /-- SHA Rd, Ra, Rb (R97). -/
  | sha (d a b : RegNum)
  /-- SHL Rd, Ra, Rb (R98). -/
  | shl (d a b : RegNum)
  /-- CMPLT Rd, Ra, Rb (R106). -/
  | cmplt (d a b : RegNum)
  /-- CMPLE Rd, Ra, Rb (R107). -/
  | cmple (d a b : RegNum)
  /-- CMPEQ Rd, Ra, Rb (R108). -/
  | cmpeq (d a b : RegNum)
  /-- CMPLTU Rd, Ra, Rb (R109). -/
  | cmpltu (d a b : RegNum)
  /-- CMPLEU Rd, Ra, Rb (R110). -/
  | cmpleu (d a b : RegNum)
  /-- ADDI Rd, Ra, C (R100). -/
  | addi (d a : RegNum) (n6 : Imm6)
  /-- LD Rd, C(Ra) (R116). -/
  | ld (d a : RegNum) (n6 : Imm6)
  /-- ST C(Ra), Rb (R117); the data register `b` stands in I[11:9]. -/
  | st (b a : RegNum) (n6 : Imm6)
  /-- MOVI Rd, C (R125). -/
  | movi (d : RegNum) (n8 : Imm8)
  /-- MOVHI Rd, C (R126). -/
  | movhi (d : RegNum) (n8 : Imm8)
  /-- BZ Rb, C (R121); `b` stands in I[11:9]. -/
  | bz (b : RegNum) (n8 : Imm8)
  /-- BNZ Rb, C (R122); `b` stands in I[11:9]. -/
  | bnz (b : RegNum) (n8 : Imm8)
  /-- IN Rd, C (R130). -/
  | inPort (d : RegNum) (n8 : Port)
  /-- OUT C, Rb (R131); `b` stands in I[11:9]. -/
  | outPort (b : RegNum) (n8 : Port)
  /-- A word of operation codes 1000 to 1111, with its low 15 bits (R70): Illegal. -/
  | unusedOpcode (rest : BitVec 15)
  /-- A word of operation code 0001 with fff = 010 (R71): Illegal. -/
  | unusedCompare2 (d a b : RegNum)
  /-- A word of operation code 0001 with fff = 110 (R71): Illegal. -/
  | unusedCompare6 (d a b : RegNum)
  /-- A word of operation code 0001 with fff = 111 (R71): Illegal. -/
  | unusedCompare7 (d a b : RegNum)
  /-- A word 0000 ddd aaa 011 bbb with bbb not 000 (R72): Illegal or NOT, by NOT_BBB_POLICY. -/
  | notBbb (d a b : RegNum)
  deriving DecidableEq, Repr

end Sys2Proof
end

