-- ==== Sys2Proof/WellFormed.lean ====
section
/-! DEFINITION. Which instructions stand for a word. The field widths are in the types and every register
number is valid in every field (30_encoding.md R65), so one condition is left. -/

namespace Sys2Proof

/-- A NOT with a nonzero bbb field has a nonzero bbb field (30_encoding.md R72); the other instructions
have no reserved bits (R73). -/
def Instr.wellFormed : Instr → Bool
  | .notBbb _ _ b => b != 0#3
  | .and _ _ _ | .or _ _ _ | .xor _ _ _ | .not _ _ | .add _ _ _ | .sub _ _ _ | .sha _ _ _ | .shl _ _ _
  | .cmplt _ _ _ | .cmple _ _ _ | .cmpeq _ _ _ | .cmpltu _ _ _ | .cmpleu _ _ _
  | .addi _ _ _ | .ld _ _ _ | .st _ _ _ | .movi _ _ | .movhi _ _ | .bz _ _ | .bnz _ _
  | .inPort _ _ | .outPort _ _
  | .unusedOpcode _ | .unusedCompare2 _ _ _ | .unusedCompare6 _ _ _ | .unusedCompare7 _ _ _ => true

end Sys2Proof
end

