-- ==== Sys2Proof/Decode.lean ====
section
/-! DEFINITION. Decoding a word (30_encoding.md R67) and encoding an instruction (R62 to R64, R80). The
decoder is total: the words R67 calls Illegal decode to the constructor of their row of the opcode table,
which names them. It looks at the word alone; NOT_BBB_POLICY acts in the meaning of `notBbb`. -/

namespace Sys2Proof

/-- cccc, I[15:12] (30_encoding.md R61). -/
def fieldC (w : Word) : BitVec 4 := w.extractLsb' 12 4

/-- ddd, or bbb in ST, BZ, BNZ and OUT: I[11:9] (R61). -/
def fieldD (w : Word) : RegNum := w.extractLsb' 9 3

/-- aaa, I[8:6] (R61). -/
def fieldA (w : Word) : RegNum := w.extractLsb' 6 3

/-- e, I[8] (R61). -/
def fieldE (w : Word) : BitVec 1 := w.extractLsb' 8 1

/-- fff, I[5:3] (R61). -/
def fieldF (w : Word) : BitVec 3 := w.extractLsb' 3 3

/-- bbb of the 3-Reg format, I[2:0] (R61). -/
def fieldB (w : Word) : RegNum := w.extractLsb' 0 3

/-- N6, I[5:0] (R61). -/
def fieldN6 (w : Word) : Imm6 := w.extractLsb' 0 6

/-- N8, I[7:0] (R61). -/
def fieldN8 (w : Word) : Imm8 := w.extractLsb' 0 8

/-- The instructions of operation code 0000, by fff (R67). -/
def decodeArithLogic (f : BitVec 3) (d a b : RegNum) : Instr :=
  match f.toNat with
  | 0 => .and d a b
  | 1 => .or d a b
  | 2 => .xor d a b
  | 3 => if b = 0#3 then .not d a else .notBbb d a b
  | 4 => .add d a b
  | 5 => .sub d a b
  | 6 => .sha d a b
  | _ => .shl d a b

/-- The instructions of operation code 0001, by fff (R67, R71). -/
def decodeCompare (f : BitVec 3) (d a b : RegNum) : Instr :=
  match f.toNat with
  | 0 => .cmplt d a b
  | 1 => .cmple d a b
  | 2 => .unusedCompare2 d a b
  | 3 => .cmpeq d a b
  | 4 => .cmpltu d a b
  | 5 => .cmpleu d a b
  | 6 => .unusedCompare6 d a b
  | _ => .unusedCompare7 d a b

/-- The decoder of R67. -/
def decode (w : Word) : Instr :=
  match (fieldC w).toNat with
  | 0 => decodeArithLogic (fieldF w) (fieldD w) (fieldA w) (fieldB w)
  | 1 => decodeCompare (fieldF w) (fieldD w) (fieldA w) (fieldB w)
  | 2 => .addi (fieldD w) (fieldA w) (fieldN6 w)
  | 3 => .ld (fieldD w) (fieldA w) (fieldN6 w)
  | 4 => .st (fieldD w) (fieldA w) (fieldN6 w)
  | 5 => if fieldE w = 0#1 then .movi (fieldD w) (fieldN8 w) else .movhi (fieldD w) (fieldN8 w)
  | 6 => if fieldE w = 0#1 then .bz (fieldD w) (fieldN8 w) else .bnz (fieldD w) (fieldN8 w)
  | 7 => if fieldE w = 0#1 then .inPort (fieldD w) (fieldN8 w) else .outPort (fieldD w) (fieldN8 w)
  | _ => .unusedOpcode (w.extractLsb' 0 15)

/-- Format 3-Reg: cccc ddd aaa fff bbb (R62, R80). -/
def enc3 (c : BitVec 4) (d a : RegNum) (f : BitVec 3) (b : RegNum) : Word := c ++ d ++ a ++ f ++ b

/-- Format 2-Reg: cccc rrr aaa nnnnnn (R63, R80). -/
def enc2 (c : BitVec 4) (r a : RegNum) (n6 : Imm6) : Word := c ++ r ++ a ++ n6

/-- Format 1-Reg: cccc rrr e nnnnnnnn (R64, R80). -/
def enc1 (c : BitVec 4) (r : RegNum) (e : BitVec 1) (n8 : Imm8) : Word := c ++ r ++ e ++ n8

/-- The word of an instruction, from the "Encoding" line of its rule (opcode map R66). -/
def encode : Instr → Word
  | .and d a b => enc3 0b0000#4 d a 0b000#3 b
  | .or d a b => enc3 0b0000#4 d a 0b001#3 b
  | .xor d a b => enc3 0b0000#4 d a 0b010#3 b
  | .not d a => enc3 0b0000#4 d a 0b011#3 0b000#3
  | .add d a b => enc3 0b0000#4 d a 0b100#3 b
  | .sub d a b => enc3 0b0000#4 d a 0b101#3 b
  | .sha d a b => enc3 0b0000#4 d a 0b110#3 b
  | .shl d a b => enc3 0b0000#4 d a 0b111#3 b
  | .cmplt d a b => enc3 0b0001#4 d a 0b000#3 b
  | .cmple d a b => enc3 0b0001#4 d a 0b001#3 b
  | .cmpeq d a b => enc3 0b0001#4 d a 0b011#3 b
  | .cmpltu d a b => enc3 0b0001#4 d a 0b100#3 b
  | .cmpleu d a b => enc3 0b0001#4 d a 0b101#3 b
  | .addi d a n6 => enc2 0b0010#4 d a n6
  | .ld d a n6 => enc2 0b0011#4 d a n6
  | .st b a n6 => enc2 0b0100#4 b a n6
  | .movi d n8 => enc1 0b0101#4 d 0b0#1 n8
  | .movhi d n8 => enc1 0b0101#4 d 0b1#1 n8
  | .bz b n8 => enc1 0b0110#4 b 0b0#1 n8
  | .bnz b n8 => enc1 0b0110#4 b 0b1#1 n8
  | .inPort d n8 => enc1 0b0111#4 d 0b0#1 n8
  | .outPort b n8 => enc1 0b0111#4 b 0b1#1 n8
  | .unusedOpcode rest => 0b1#1 ++ rest
  | .unusedCompare2 d a b => enc3 0b0001#4 d a 0b010#3 b
  | .unusedCompare6 d a b => enc3 0b0001#4 d a 0b110#3 b
  | .unusedCompare7 d a b => enc3 0b0001#4 d a 0b111#3 b
  | .notBbb d a b => enc3 0b0000#4 d a 0b011#3 b

/-- The instruction the decoder reads from `nbits` bits `w` numbered as the opcode table numbers them,
the bits above `nbits` being 0. An instruction is one word of 16 bits (30_encoding.md R60, R74), so no
bits and more than 16 bits are no instruction. -/
def decodeTableWord (nbits w : Nat) : Option Instr :=
  if nbits = 0 ∨ 16 < nbits then none else some (decode (BitVec.ofNat 16 (w % 2 ^ nbits)))

end Sys2Proof
end

