-- ==== Sys2Proof/Config.lean ====
section
/-! DEFINITION. What an implementation or a launch fixes (00_scope.md R6), what the outside world does to ports
that are one register, and the free values of the model (20_memory.md R53). -/

namespace Sys2Proof

/-- `MEMORY_ORGANISATION` (20_memory.md R52, decision D10). -/
inductive MemoryOrganisation where
  /-- One memory for code and data, as SISA-I defines it and SISP-I-3 has it. -/
  | unified
  /-- Two memories, as SISP-I-1 and SISP-I-2 have them: fetch reads one, LD and ST use the other. -/
  | harvard
  deriving DecidableEq, Repr

/-- `NOT_BBB_POLICY` (30_encoding.md R72, decision D3). -/
inductive NotBbbPolicy where
  /-- The words 0000 ddd aaa 011 bbb with bbb not 000 are Illegal. -/
  | fault
  /-- They are NOT Rd, Ra, with bbb disregarded. -/
  | ignore
  deriving DecidableEq, Repr

/-- `INPUT_ORACLE` (20_memory.md R53, 70_reset_and_hazards.md R161) as plain data: the answers a launch lists, and
the device that answers the rest. What a port holds throughout is `State.inputs` (DESIGN CHOICE, log 5). -/
structure InputOracle where
  /-- The answers to the INs from each port, in turn: the first one listed for `p` answers the first IN from `p`. -/
  answers : List (Port × Word)
  /-- Which of the unconstrained devices answers where neither a listed answer nor a held value does. -/
  device : Nat
  deriving DecidableEq, Repr

/-- The parameters that stay fixed during a run (00_scope.md R6, 70_reset_and_hazards.md R161). -/
structure Params where
  /-- R52: one memory or two. -/
  memoryOrganisation : MemoryOrganisation
  /-- R72: what NOT with bbb not 000 is. -/
  notBbbPolicy : NotBbbPolicy
  /-- 10_state.md R33: the ports p for which IO_SHARED(p) holds. -/
  ioShared : List Port
  /-- R53: what an IN reads. -/
  inputOracle : InputOracle
  /-- R163: the address at which a run is over, if there is one. -/
  endPc : Option Word
  deriving DecidableEq, Repr

/-- The defaults of 00_scope.md R6: no listed answer, so that any value may be read. END_PC has none there, and no
end is the model's choice (DESIGN CHOICE, log 7). -/
def Params.default : Params where
  memoryOrganisation := .unified
  notBbbPolicy := .fault
  ioShared := []
  inputOracle := { answers := [], device := 0 }
  endPc := none

/-- One event of the I/O trace (70_reset_and_hazards.md R167). -/
inductive IoEvent where
  /-- An IN from port `p` read `v`. -/
  | input (p : Port) (v : Word)
  /-- An OUT to port `p` wrote `v`. -/
  | output (p : Port) (v : Word)
  deriving DecidableEq, Repr

/-- What the outside world writes into the ports that are one register, between the instructions to come
(70_reset_and_hazards.md R166, "observe output"; DESIGN CHOICE of the form, log 5). -/
inductive PortChanges where
  /-- Before each step to come, the values listed for it; after the list, nothing. -/
  | listed (coming : List (List (Port × Word)))
  /-- Anything, at any time: the changes are `Config.portChange` of the number of steps counted here. -/
  | free (count : Nat)
  deriving DecidableEq, Repr

/-- The changes that are left after a step. -/
def PortChanges.afterStep : PortChanges → PortChanges
  | .listed [] => .listed []
  | .listed (_ :: rest) => .listed rest
  | .free n => .free (n + 1)

/-- The unconstrained `INPUT_ORACLE` (20_memory.md R53, decision D8), for each number of a device: a FREE VALUE. What
an IN reads, given the I/O events before it. Nothing is known of it; each IN is answered afresh, since each IN adds
an event (DESIGN CHOICE, log 5: safe). -/
opaque Config.inputOracle : Nat → List IoEvent → Port → Word

/-- What a device, by its number, writes into the register of a shared port before the step of a number, if anything
(70_reset_and_hazards.md R166): a FREE VALUE. Nothing is known of it (DESIGN CHOICE, log 5: safe). -/
opaque Config.portChange : Nat → Nat → Port → Option Word

end Sys2Proof
end

