-- ==== Sys2Proof/Machine/State.lean ====
section
/-! DEFINITION. The state of the machine (10_state.md R20), the reasons a step stops, and the state right
after reset (70_reset_and_hazards.md R160). -/

namespace Sys2Proof.Machine

/-- The content of an address space: the cells that hold a value, as pairs of address and 16-bit word, in
the canonical form of `Cells.wf` (strictly rising addresses). An address that is not listed has never been
written and holds no value (10_state.md R35, R36; DESIGN CHOICE, logs 3 and 4). -/
abbrev Cells := List (Nat × Word)

/-- The architectural state (R20), the parameters of the implementation and the launch (00_scope.md R6),
and the I/O trace (70_reset_and_hazards.md R167). -/
structure State where
  /-- R0 to R7 (R21). -/
  regs : Vector Word 8
  /-- PC, the address the instruction is fetched from (R24). -/
  pc : Word
  /-- MEM (R30); under harvard the data memory DMEM (20_memory.md R52). -/
  mem : Cells
  /-- Under harvard the instruction memory IMEM (20_memory.md R52); not used under unified. -/
  imem : Cells
  /-- What a port of INPUT (R31) with a register of its own holds, as far as the launch or the outside world
  fixes it; what an IN from another port reads is `INPUT_ORACLE` (20_memory.md R53; DESIGN CHOICE, log 5). -/
  inputs : Cells
  /-- OUTPUT (R32). Where a port is one register (R33), its only register, INPUT's too. -/
  outputs : Cells
  /-- What the outside world is about to write into the ports that are one register (70_reset_and_hazards.md
  R166; the model's own field, log 5). -/
  portChanges : PortChanges
  /-- The I/O events so far, oldest first (70_reset_and_hazards.md R167; the model's own field, log 8). -/
  trace : List IoEvent
  /-- The parameters, fixed during a run (00_scope.md R6). -/
  params : Params
  deriving DecidableEq, Repr

/-- What an `UnwrittenRead` names (60_exceptions.md R141). A register is never named: every register holds
a value in this model (DESIGN CHOICE, log 1). -/
inductive UnwrittenCell where
  /-- The word of MEM (under harvard, of the data memory) at an address. -/
  | mem (addr : Word)
  /-- The word of the instruction memory at an address, under harvard. -/
  | imem (addr : Word)
  deriving DecidableEq, Repr

/-- The model-level faults of 60_exceptions.md R141. They are stops of the model, not events of the machine. -/
inductive Fault where
  /-- Raised by the meanings of the words that no instruction uses (R70, R71, R72), with the word. The real
  processor does something no source states: safe. -/
  | illegalInstruction (word : Word)
  /-- Raised by a fetch of, and by LD from, a memory word that nothing has written (10_state.md R36). The
  real memory holds some value no source states: safe. -/
  | unwrittenRead (what : UnwrittenCell)
  deriving DecidableEq, Repr

/-- The reasons for which the model gives no meaning. -/
inductive Refusal where
  /-- Raised by `exec` alone, for an instruction not modelled yet; no arm of `exec` raises it now. Safe. -/
  | notModelled (mnemonic : String)
  deriving DecidableEq, Repr

/-- The machine right after reset (70_reset_and_hazards.md R160). No source gives any of these values
(91_not_in_source.md N1). Memory and ports hold nothing written, as R160 says; the parameters are the
defaults of 00_scope.md R6, under which no port is shared, so that none has a change to come (log 5). Registers
zero and PC zero are the model's choice (DESIGN CHOICE, logs 1 and 2: unsafe). A launch gives its own values:
`Launch.initial`. -/
def State.reset : State where
  regs := Vector.replicate 8 0#16
  pc := 0#16
  mem := []
  imem := []
  inputs := []
  outputs := []
  portChanges := .listed []
  trace := []
  params := Params.default

end Sys2Proof.Machine
end

