-- ==== Sys2Proof/Machine/Ops.lean ====
section
/-! DEFINITION. The named operations over the state: the primitives of 00_scope.md R15, in one place each. -/

namespace Sys2Proof.Machine

/-! ### Address spaces -/

/-- The value at an address, if anything has written one. -/
def Cells.read : Cells → Nat → Option Word
  | [], _ => none
  | (k, v) :: rest, a => if k = a then some v else Cells.read rest a

/-- Write a value at an address, keeping the canonical form. -/
def Cells.write : Cells → Nat → Word → Cells
  | [], a, w => [(a, w)]
  | (k, v) :: rest, a, w =>
    if a < k then (a, w) :: (k, v) :: rest
    else if a = k then (a, w) :: rest
    else (k, v) :: Cells.write rest a w

/-- Every address of the list is at least `lo`, and the addresses rise strictly. -/
def Cells.risesFrom : Cells → Nat → Bool
  | [], _ => true
  | (k, _) :: rest, lo => decide (lo ≤ k) && Cells.risesFrom rest (k + 1)

/-- The canonical form of a space of `size` cells: strictly rising addresses, each below `size`. -/
def Cells.wf (c : Cells) (size : Nat) : Bool :=
  Cells.risesFrom c 0 && c.all fun kv => decide (kv.1 < size)

/-- The size of MEM, 2^16 words (00_scope.md R5). -/
def memSize : Nat := 65536

/-- The size of INPUT and of OUTPUT, 2^8 ports (R5). -/
def portCount : Nat := 256

/-- The canonical form of all of the state's spaces. -/
def State.wf (s : State) : Bool :=
  s.mem.wf memSize && s.imem.wf memSize && s.inputs.wf portCount && s.outputs.wf portCount

/-! ### Registers and the program counter -/

/-- `R[r]` (00_scope.md R15). All eight registers are alike: none reads as a constant (10_state.md R22). -/
def State.reg (s : State) (r : RegNum) : Word := s.regs[r.toNat]'r.isLt

/-- `R[r] <- v`: all sixteen bits are written, in every one of the eight registers (10_state.md R22). -/
def State.setReg (s : State) (r : RegNum) (v : Word) : State :=
  { s with regs := s.regs.set r.toNat v r.isLt }

/-- `pc <- target` (00_scope.md R15). -/
def State.setPc (s : State) (target : Word) : State := { s with pc := target }

/-- `pc <- pc + 1`, modulo 2^16 (10_state.md R25, R26). -/
def State.advance (s : State) : State := s.setPc (s.pc + 1#16)

/-! ### Memory -/

/-- `MemRead(addr, 1)` of a data access: the word of MEM, or of DMEM under harvard (20_memory.md R52). -/
def State.dataWord (s : State) (addr : Word) : Option Word := s.mem.read addr.toNat

/-- `MemWrite(addr, 1, v)`: ST writes MEM, or DMEM under harvard (20_memory.md R52). -/
def State.writeData (s : State) (addr v : Word) : State := { s with mem := s.mem.write addr.toNat v }

/-- `MemRead(addr, 1)` of a fetch: the word of MEM under unified, of IMEM under harvard (20_memory.md R47, R52). -/
def State.codeWord (s : State) (addr : Word) : Option Word :=
  match s.params.memoryOrganisation with
  | .unified => s.mem.read addr.toNat
  | .harvard => s.imem.read addr.toNat

/-- Put a word where the fetch reads it: a launch does this, no instruction does under harvard (R52). -/
def State.placeCode (s : State) (addr v : Word) : State :=
  match s.params.memoryOrganisation with
  | .unified => { s with mem := s.mem.write addr.toNat v }
  | .harvard => { s with imem := s.imem.write addr.toNat v }

/-- The cell a fetch from `addr` reads, as `UnwrittenRead` names it (60_exceptions.md R141). -/
def State.codeCell (s : State) (addr : Word) : UnwrittenCell :=
  match s.params.memoryOrganisation with
  | .unified => .mem addr
  | .harvard => .imem addr

/-! ### Ports -/

/-- `IO_SHARED(p)` (10_state.md R33). -/
def State.ioShared (s : State) (p : Port) : Bool := s.params.ioShared.contains p

/-- What OUTPUT[p] holds, if anything has written it (10_state.md R32); in a port that is one register, what
that register holds (R33). -/
def State.outPort (s : State) (p : Port) : Option Word := s.outputs.read p.toNat

/-- What INPUT[p] holds, as far as it is known: where the port is one register, what OUTPUT[p] holds (10_state.md
R33), else the value the launch or the outside world fixes (20_memory.md R53). -/
def State.heldInput (s : State) (p : Port) : Option Word :=
  if s.ioShared p then s.outPort p else s.inputs.read p.toNat

/-- The answers listed for port `p`, in turn. -/
def answersFor (p : Port) : List (Port × Word) → List Word
  | [] => []
  | (q, v) :: rest => if q = p then v :: answersFor p rest else answersFor p rest

/-- How many INs from port `p` a trace holds. -/
def inputCount (p : Port) : List IoEvent → Nat
  | [] => 0
  | .input q _ :: rest => inputCount p rest + if q = p then 1 else 0
  | .output _ _ :: rest => inputCount p rest

/-- The answer the launch lists for the next IN from port `p`, if there is one (70_reset_and_hazards.md R161). -/
def State.listedAnswer (s : State) (p : Port) : Option Word :=
  (answersFor p s.params.inputOracle.answers)[inputCount p s.trace]?

/-- What a port that is one register reads: what it holds, or, before anything has been written into it, one
unknown value (10_state.md R33, 20_memory.md R53; log 5). -/
def State.readShared (s : State) (p : Port) : Word :=
  (s.outPort p).getD (Config.inputOracle s.params.inputOracle.device [] p)

/-- What an input port with a register of its own reads: the listed answer, else what the port holds, else any
value (20_memory.md R53). -/
def State.readDistinct (s : State) (p : Port) : Word :=
  ((s.listedAnswer p).or (s.heldInput p)).getD (Config.inputOracle s.params.inputOracle.device s.trace p)

/-- `InRead(p)` (00_scope.md R15, 20_memory.md R53, 10_state.md R33). -/
def State.inRead (s : State) (p : Port) : Word := if s.ioShared p then s.readShared p else s.readDistinct p

/-- `OutWrite(p, v)` (00_scope.md R15, 10_state.md R32): in a port that is one register this is what INPUT[p]
holds too (R33). -/
def State.outWrite (s : State) (p : Port) (v : Word) : State := { s with outputs := s.outputs.write p.toNat v }

/-- Add an event to the I/O trace (70_reset_and_hazards.md R167). -/
def State.record (s : State) (e : IoEvent) : State := { s with trace := s.trace ++ [e] }

/-- The outside world makes INPUT[p] hold `v` and leaves it so (20_memory.md R55, 70_reset_and_hazards.md
R166). No step does this: it is the host's move, at launch or between instructions. In a port that is one register
it writes that register (10_state.md R33). -/
def State.presentInput (s : State) (p : Port) (v : Word) : State :=
  { s with
    inputs := if s.ioShared p then s.inputs else s.inputs.write p.toNat v
    outputs := if s.ioShared p then s.outputs.write p.toNat v else s.outputs }

/-! ### The outside world between two instructions -/

/-- What the outside world writes into port `p` before the next instruction, if anything: only into a port that is
one register (20_memory.md R55, 70_reset_and_hazards.md R166). -/
def State.outsideMove (s : State) (p : Port) : Option Word :=
  if s.ioShared p then
    match s.portChanges with
    | .listed [] => none
    | .listed (now :: _) => now.lookup p
    | .free n => Config.portChange s.params.inputOracle.device n p
  else none

/-- Write a value at an address, if there is one to write. -/
def Cells.writeIf (c : Cells) (a : Nat) : Option Word → Cells
  | some v => c.write a v
  | none => c

/-- Write, at each of some ports, the value `move` has for it. -/
def Cells.update (move : Port → Option Word) : List Port → Cells → Cells
  | [], c => c
  | p :: rest, c => Cells.update move rest (c.writeIf p.toNat (move p))

/-- The outside world's move between two instructions: it changes the shared ports and nothing else
(70_reset_and_hazards.md R166, "the device may change the shared register between instructions"). -/
def State.outside (s : State) : State :=
  { s with
    outputs := s.outputs.update s.outsideMove s.params.ioShared
    portChanges := s.portChanges.afterStep }

/-! ### How an instruction ends -/

/-- What a step answers. -/
abbrev Result := Host.Outcome State Fault Refusal

/-- Write the destination register and go to the next instruction (00_scope.md R16). -/
def State.finishReg (s : State) (d : RegNum) (v : Word) : Result := .next (s.setReg d v).advance

/-- `raise IllegalInstruction(I)` (60_exceptions.md R141). SISA-I has no exception to take and none to
return from (R140, R144, R145): the stop is the model's own. -/
def raiseIllegal (word : Word) : Result := .fault (.illegalInstruction word)

/-- `raise UnwrittenRead(what)` (60_exceptions.md R141). -/
def raiseUnwritten (what : UnwrittenCell) : Result := .fault (.unwrittenRead what)

/-- Fetch the word at the pc and run `body` on it; the fetch itself changes nothing (20_memory.md R47). A
word that nothing has written is no instruction (10_state.md R36). -/
def State.withFetched (s : State) (body : Word → Result) : Result :=
  match s.codeWord s.pc with
  | some w => body w
  | none => raiseUnwritten (s.codeCell s.pc)

end Sys2Proof.Machine
end

