-- ==== Sys2Proof/Machine/Operands.lean ====
section
/-! DEFINITION. The operands of instructions: the immediates, the effective address, the branch target and
the shift operators (00_scope.md R10, R14; 30_encoding.md R68, R69; 44_memory_access.md R115). -/

namespace Sys2Proof.Machine

/-- `sext_6(n6)` (00_scope.md R10, 30_encoding.md R68). -/
def sext6 (n6 : Imm6) : Word := n6.signExtend 16

/-- `sext_8(n8)` (00_scope.md R10, 30_encoding.md R69). -/
def sext8 (n8 : Imm8) : Word := n8.signExtend 16

/-- The effective address of LD and ST, `R[a] + sext_6(n6)` modulo 2^16 (44_memory_access.md R115). -/
def State.effectiveAddress (s : State) (a : RegNum) (n6 : Imm6) : Word := s.reg a + sext6 n6

/-- The target of a taken branch, `pc + sext_8(n8)` modulo 2^16, from the branch's own address
(45_branches.md R120). -/
def State.branchTarget (s : State) (n8 : Imm8) : Word := s.pc + sext8 n8

/-- The 5-bit vector K of a shift: the low five bits of the count register (41_arith_logic.md R97, R98). -/
def shiftField (y : Word) : BitVec 5 := y.extractLsb' 0 5

/-- `k = Ks`, from -16 to 15 (00_scope.md R14). -/
def shiftCount (k : BitVec 5) : Int := k.toInt

/-- `shl(X, K)` (00_scope.md R14): positive counts shift left, negative counts right, on the natural reading. -/
def shiftLogical (x : Word) (k : BitVec 5) : Word :=
  if 0 ≤ shiftCount k then BitVec.ofNat 16 (x.toNat * 2 ^ (shiftCount k).toNat)
  else BitVec.ofNat 16 (x.toNat / 2 ^ (-shiftCount k).toNat)

/-- `sha(X, K)` (00_scope.md R14): as `shl` for positive counts; for negative counts the quotient of the
integer reading, rounded down. -/
def shiftArithmetic (x : Word) (k : BitVec 5) : Word :=
  if 0 ≤ shiftCount k then BitVec.ofNat 16 (x.toNat * 2 ^ (shiftCount k).toNat)
  else BitVec.ofInt 16 (Int.fdiv x.toInt (2 ^ (-shiftCount k).toNat))

/-- `n8 ‖ X[7:0]`: the high byte replaced, the low byte kept (46_move_immediate.md R126). -/
def replaceHighByte (n8 : Imm8) (x : Word) : Word := n8 ++ x.extractLsb' 0 8

end Sys2Proof.Machine
end

