-- ==== Sys2Proof/Machine/AddImmediate.lean ====
section
/-! DEFINITION. ADDI (42_add_immediate.md R100, R101). -/

namespace Sys2Proof.Machine

/-- ADDI: `R[d] <- R[a] + sext_6(n6)`, the low 16 bits (R100). -/
def execAddi (d a : RegNum) (n6 : Imm6) (s : State) : Result := s.finishReg d (s.reg a + sext6 n6)

end Sys2Proof.Machine
end

