-- ==== Sys2Proof/Machine/ArithLogic.lean ====
section
/-! DEFINITION. AND, OR, XOR, NOT, ADD, SUB, SHA, SHL (41_arith_logic.md R90 to R99). -/

namespace Sys2Proof.Machine

/-- AND: `R[d] <- R[a] & R[b]` (R91). -/
def execAnd (d a b : RegNum) (s : State) : Result := s.finishReg d (s.reg a &&& s.reg b)

/-- OR: `R[d] <- R[a] | R[b]` (R92). -/
def execOr (d a b : RegNum) (s : State) : Result := s.finishReg d (s.reg a ||| s.reg b)

/-- XOR: `R[d] <- R[a] ^ R[b]` (R93). -/
def execXor (d a b : RegNum) (s : State) : Result := s.finishReg d (s.reg a ^^^ s.reg b)

/-- NOT: `R[d] <- ~R[a]` (R94). -/
def execNot (d a : RegNum) (s : State) : Result := s.finishReg d (~~~ s.reg a)

/-- ADD: `R[d] <- R[a] + R[b]`, the low 16 bits (R95). -/
def execAdd (d a b : RegNum) (s : State) : Result := s.finishReg d (s.reg a + s.reg b)

/-- SUB: `R[d] <- R[a] - R[b]`, the low 16 bits (R96). -/
def execSub (d a b : RegNum) (s : State) : Result := s.finishReg d (s.reg a - s.reg b)

/-- SHA: `R[d] <- sha(R[a], R[b][4:0])` (R97). -/
def execSha (d a b : RegNum) (s : State) : Result :=
  s.finishReg d (shiftArithmetic (s.reg a) (shiftField (s.reg b)))

/-- SHL: `R[d] <- shl(R[a], R[b][4:0])` (R98). -/
def execShl (d a b : RegNum) (s : State) : Result :=
  s.finishReg d (shiftLogical (s.reg a) (shiftField (s.reg b)))

end Sys2Proof.Machine
end

