-- ==== Sys2Proof/Machine/Flags.lean ====
section
/-! DEFINITION. SISA-I has no flags (10_state.md R27): a comparison writes 1 or 0 into a register, and a
branch tests a register. The conditions stand here (00_scope.md R9, R11; 43_compare.md R105). -/

namespace Sys2Proof.Machine

/-- TRUE as a comparison writes it is 0x0001, FALSE is 0x0000 (43_compare.md R105). -/
def boolWord (c : Bool) : Word := if c then 0x0001#16 else 0x0000#16

/-- `Xs < Ys` (00_scope.md R11). -/
def ltSigned (x y : Word) : Bool := decide (x.toInt < y.toInt)

/-- `Xs <= Ys` (00_scope.md R11). -/
def leSigned (x y : Word) : Bool := decide (x.toInt ≤ y.toInt)

/-- `X == Y`, equality of the vectors (00_scope.md R11). -/
def eqWords (x y : Word) : Bool := decide (x = y)

/-- `Xu < Yu` (00_scope.md R11). -/
def ltUnsigned (x y : Word) : Bool := decide (x.toNat < y.toNat)

/-- `Xu <= Yu` (00_scope.md R11). -/
def leUnsigned (x y : Word) : Bool := decide (x.toNat ≤ y.toNat)

/-- The test of BZ and BNZ: all sixteen bits are 0 (45_branches.md R120 (c)). -/
def isZeroWord (x : Word) : Bool := decide (x = 0x0000#16)

end Sys2Proof.Machine
end

