-- ==== Sys2Proof/Machine/Branches.lean ====
section
/-! DEFINITION. BZ and BNZ (45_branches.md R120 to R124). -/

namespace Sys2Proof.Machine

/-- A branch: to its target if taken, else to the next instruction; nothing else changes (R120). -/
def State.branchIf (s : State) (taken : Bool) (n8 : Imm8) : Result :=
  if taken then .next (s.setPc (s.branchTarget n8)) else .next s.advance

/-- BZ: taken when `R[b]` is zero (R121). -/
def execBz (b : RegNum) (n8 : Imm8) (s : State) : Result := s.branchIf (isZeroWord (s.reg b)) n8

/-- BNZ: taken when `R[b]` is not zero (R122). -/
def execBnz (b : RegNum) (n8 : Imm8) (s : State) : Result := s.branchIf (!isZeroWord (s.reg b)) n8

end Sys2Proof.Machine
end

