-- ==== Sys2Proof/Machine/Compare.lean ====
section
/-! DEFINITION. CMPLT, CMPLE, CMPEQ, CMPLTU, CMPLEU (43_compare.md R105 to R110). -/

namespace Sys2Proof.Machine

/-- CMPLT: `R[d] <- (R[a]s < R[b]s) ? 1 : 0` (R106). -/
def execCmplt (d a b : RegNum) (s : State) : Result := s.finishReg d (boolWord (ltSigned (s.reg a) (s.reg b)))

/-- CMPLE: `R[d] <- (R[a]s <= R[b]s) ? 1 : 0` (R107). -/
def execCmple (d a b : RegNum) (s : State) : Result := s.finishReg d (boolWord (leSigned (s.reg a) (s.reg b)))

/-- CMPEQ: `R[d] <- (R[a] == R[b]) ? 1 : 0` (R108). -/
def execCmpeq (d a b : RegNum) (s : State) : Result := s.finishReg d (boolWord (eqWords (s.reg a) (s.reg b)))

/-- CMPLTU: `R[d] <- (R[a]u < R[b]u) ? 1 : 0` (R109). -/
def execCmpltu (d a b : RegNum) (s : State) : Result := s.finishReg d (boolWord (ltUnsigned (s.reg a) (s.reg b)))

/-- CMPLEU: `R[d] <- (R[a]u <= R[b]u) ? 1 : 0` (R110). -/
def execCmpleu (d a b : RegNum) (s : State) : Result := s.finishReg d (boolWord (leUnsigned (s.reg a) (s.reg b)))

end Sys2Proof.Machine
end

