-- ==== Sys2Proof/Machine/InputOutput.lean ====
section
/-! DEFINITION. IN and OUT (47_input_output.md R130 to R133). -/

namespace Sys2Proof.Machine

/-- IN: `R[d] <- InRead(n8)` (R130), seen in the I/O trace (70_reset_and_hazards.md R167). -/
def execIn (d : RegNum) (n8 : Port) (s : State) : Result :=
  (s.record (.input n8 (s.inRead n8))).finishReg d (s.inRead n8)

/-- OUT: `OutWrite(n8, R[b])` (R131), seen in the I/O trace (70_reset_and_hazards.md R167). -/
def execOut (b : RegNum) (n8 : Port) (s : State) : Result :=
  .next ((s.outWrite n8 (s.reg b)).record (.output n8 (s.reg b))).advance

end Sys2Proof.Machine
end

