-- ==== Sys2Proof/Machine/MemoryAccess.lean ====
section
/-! DEFINITION. LD and ST (44_memory_access.md R115 to R118). -/

namespace Sys2Proof.Machine

/-- LD: `R[d] <- MemRead(ea, 1)` (R116). A word that nothing has written stops the model (10_state.md R36). -/
def execLd (d a : RegNum) (n6 : Imm6) (s : State) : Result :=
  match s.dataWord (s.effectiveAddress a n6) with
  | some v => s.finishReg d v
  | none => raiseUnwritten (.mem (s.effectiveAddress a n6))

/-- ST: `MemWrite(ea, 1, R[b])` (R117). -/
def execSt (b a : RegNum) (n6 : Imm6) (s : State) : Result :=
  .next (s.writeData (s.effectiveAddress a n6) (s.reg b)).advance

end Sys2Proof.Machine
end

