-- ==== Sys2Proof/Machine/MoveImmediate.lean ====
section
/-! DEFINITION. MOVI and MOVHI (46_move_immediate.md R125 to R127). -/

namespace Sys2Proof.Machine

/-- MOVI: `R[d] <- sext_8(n8)` (R125). -/
def execMovi (d : RegNum) (n8 : Imm8) (s : State) : Result := s.finishReg d (sext8 n8)

/-- MOVHI: `R[d] <- n8 ‖ R[d][7:0]` (R126). -/
def execMovhi (d : RegNum) (n8 : Imm8) (s : State) : Result := s.finishReg d (replaceHighByte n8 (s.reg d))

end Sys2Proof.Machine
end

