-- ==== Sys2Proof/Machine/Unused.lean ====
section
/-! DEFINITION. The words that no instruction uses (30_encoding.md R70 to R72; decisions D1 to D3 of
92_eei_decisions.md): the spec gives them no effect, and the model-level fault of 60_exceptions.md R141. -/

namespace Sys2Proof.Machine

/-- Operation codes 1000 to 1111 (R70). -/
def execUnusedOpcode (rest : BitVec 15) (_s : State) : Result := raiseIllegal (encode (.unusedOpcode rest))

/-- Operation code 0001 with fff = 010 (R71). -/
def execUnusedCompare2 (d a b : RegNum) (_s : State) : Result := raiseIllegal (encode (.unusedCompare2 d a b))

/-- Operation code 0001 with fff = 110 (R71). -/
def execUnusedCompare6 (d a b : RegNum) (_s : State) : Result := raiseIllegal (encode (.unusedCompare6 d a b))

/-- Operation code 0001 with fff = 111 (R71). -/
def execUnusedCompare7 (d a b : RegNum) (_s : State) : Result := raiseIllegal (encode (.unusedCompare7 d a b))

/-- NOT with bbb not 000 (R72): Illegal under `fault`; NOT Rd, Ra under `ignore`, with R[b] not read. -/
def execNotBbb (d a b : RegNum) (s : State) : Result :=
  match s.params.notBbbPolicy with
  | .fault => raiseIllegal (encode (.notBbb d a b))
  | .ignore => s.finishReg d (~~~ s.reg a)

end Sys2Proof.Machine
end

