-- ==== Sys2Proof/Machine/Dispatch.lean ====
section
/-! DEFINITION. The dispatch from an instruction to its meaning, one arm for each row of the opcode table. -/

namespace Sys2Proof.Machine

def exec (i : Instr) (s : State) : Host.Outcome State Fault Refusal :=
  match i with
  | .and d a b => Sys2Proof.Machine.execAnd d a b s
  | .or d a b => Sys2Proof.Machine.execOr d a b s
  | .xor d a b => Sys2Proof.Machine.execXor d a b s
  | .not d a => Sys2Proof.Machine.execNot d a s
  | .add d a b => Sys2Proof.Machine.execAdd d a b s
  | .sub d a b => Sys2Proof.Machine.execSub d a b s
  | .sha d a b => Sys2Proof.Machine.execSha d a b s
  | .shl d a b => Sys2Proof.Machine.execShl d a b s
  | .cmplt d a b => Sys2Proof.Machine.execCmplt d a b s
  | .cmple d a b => Sys2Proof.Machine.execCmple d a b s
  | .cmpeq d a b => Sys2Proof.Machine.execCmpeq d a b s
  | .cmpltu d a b => Sys2Proof.Machine.execCmpltu d a b s
  | .cmpleu d a b => Sys2Proof.Machine.execCmpleu d a b s
  | .addi d a n6 => Sys2Proof.Machine.execAddi d a n6 s
  | .ld d a n6 => Sys2Proof.Machine.execLd d a n6 s
  | .st b a n6 => Sys2Proof.Machine.execSt b a n6 s
  | .movi d n8 => Sys2Proof.Machine.execMovi d n8 s
  | .movhi d n8 => Sys2Proof.Machine.execMovhi d n8 s
  | .bz b n8 => Sys2Proof.Machine.execBz b n8 s
  | .bnz b n8 => Sys2Proof.Machine.execBnz b n8 s
  | .inPort d n8 => Sys2Proof.Machine.execIn d n8 s
  | .outPort b n8 => Sys2Proof.Machine.execOut b n8 s
  | .unusedOpcode rest => Sys2Proof.Machine.execUnusedOpcode rest s
  | .unusedCompare2 d a b => Sys2Proof.Machine.execUnusedCompare2 d a b s
  | .unusedCompare6 d a b => Sys2Proof.Machine.execUnusedCompare6 d a b s
  | .unusedCompare7 d a b => Sys2Proof.Machine.execUnusedCompare7 d a b s
  | .notBbb d a b => Sys2Proof.Machine.execNotBbb d a b s

end Sys2Proof.Machine
end

