-- ==== Sys2Proof/Machine/Step.lean ====
section
/-! DEFINITION. One step: fetch, decode, execute (00_scope.md R16). -/

namespace Sys2Proof.Machine

/-- One step: the outside world's move, which changes nothing but ports that are one register
(70_reset_and_hazards.md R166; log 5), then one instruction of the processor (R16). It does not look at END_PC: the
processor goes on there, and it is the run that is over (70_reset_and_hazards.md R163, `State.over`; log 7). -/
def step (s : State) : Host.Outcome State Fault Refusal :=
  s.outside.withFetched fun w => exec (decode w) s.outside

/-- The instruction of `nbits` bits `w` placed where the next fetch reads it. -/
def State.withFetchWord (s : State) (nbits w : Nat) : State :=
  s.placeCode s.pc (BitVec.ofNat 16 (w % 2 ^ nbits))

end Sys2Proof.Machine
end

