-- ==== Sys2Proof/Machine/Launch.lean ====
section
/-! DEFINITION. The launch record, which a test harness or a computer supplies before the first instruction
(70_reset_and_hazards.md R161, decision D16), and the state it starts the machine in. -/

namespace Sys2Proof.Machine

/-- The launch record of R161. RESET_PC has no default and must be given (decision D4). -/
structure Launch where
  /-- The program and its initial data; under harvard the part for the instruction memory. -/
  image : List (Word × Word)
  /-- Under harvard the part for the data memory; under unified more words of the one memory. -/
  dataImage : List (Word × Word)
  /-- RESET_PC: where the first fetch happens. -/
  resetPc : Word
  /-- The registers the harness gives a value. The others start as at reset (DESIGN CHOICE, log 1). -/
  regs : List (RegNum × Word)
  /-- The part of INPUT_ORACLE that is a port holding one value throughout, after the answers listed for it; for
  a port that is one register, what the register holds at the start. -/
  inputs : List (Port × Word)
  /-- What the outside world will write into the ports that are one register. -/
  portChanges : PortChanges
  /-- The parameters of the implementation, END_PC, and the rest of INPUT_ORACLE: answers in turn, and the device. -/
  params : Params
  deriving DecidableEq, Repr

/-- Load words into the memory the fetch reads (R161). -/
def State.loadCode (s : State) (image : List (Word × Word)) : State :=
  image.foldl (fun t kv => t.placeCode kv.1 kv.2) s

/-- Load words into the memory LD and ST use (R161). -/
def State.loadData (s : State) (image : List (Word × Word)) : State :=
  image.foldl (fun t kv => t.writeData kv.1 kv.2) s

/-- Give registers their starting values (R161). -/
def State.loadRegs (s : State) (regs : List (RegNum × Word)) : State :=
  regs.foldl (fun t kv => t.setReg kv.1 kv.2) s

/-- Fix the values of input ports (R161, 20_memory.md R53). -/
def State.loadInputs (s : State) (inputs : List (Port × Word)) : State :=
  inputs.foldl (fun t kv => t.presentInput kv.1 kv.2) s

/-- The machine of a launch before anything is loaded into it. -/
def Launch.empty (l : Launch) : State :=
  { State.reset with params := l.params, pc := l.resetPc, portChanges := l.portChanges }

/-- The launch state s0 (R160, R161). -/
def Launch.initial (l : Launch) : State :=
  (((l.empty.loadCode l.image).loadData l.dataImage).loadRegs l.regs).loadInputs l.inputs

end Sys2Proof.Machine
end

