-- ==== Sys2Proof/Safety.lean ====
section
/-! DEFINITION. The terms the claims are written in: which registers an instruction reads and writes, what an
instruction leaves unchanged, the opcode table as a list, the invariants, and when a run is over. -/

namespace Sys2Proof

/-! ### Instructions as the spec's tables list them -/

/-- The column "registers read" of 10_state.md R23. -/
def Instr.regsRead : Instr → List RegNum
  | .and _ a b | .or _ a b | .xor _ a b | .add _ a b | .sub _ a b | .sha _ a b | .shl _ a b => [a, b]
  | .cmplt _ a b | .cmple _ a b | .cmpeq _ a b | .cmpltu _ a b | .cmpleu _ a b => [a, b]
  | .not _ a | .addi _ a _ | .ld _ a _ => [a]
  | .st b a _ => [a, b]
  | .movi _ _ | .inPort _ _ => []
  | .movhi d _ => [d]
  | .bz b _ | .bnz b _ | .outPort b _ => [b]
  | .notBbb _ a _ => [a]
  | .unusedOpcode _ | .unusedCompare2 _ _ _ | .unusedCompare6 _ _ _ | .unusedCompare7 _ _ _ => []

/-- The column "register written" of 10_state.md R23. -/
def Instr.regWritten : Instr → Option RegNum
  | .and d _ _ | .or d _ _ | .xor d _ _ | .add d _ _ | .sub d _ _ | .sha d _ _ | .shl d _ _ => some d
  | .cmplt d _ _ | .cmple d _ _ | .cmpeq d _ _ | .cmpltu d _ _ | .cmpleu d _ _ => some d
  | .not d _ | .addi d _ _ | .ld d _ _ | .movi d _ | .movhi d _ | .inPort d _ => some d
  | .st _ _ _ | .bz _ _ | .bnz _ _ | .outPort _ _ => none
  | .notBbb d _ _ => some d
  | .unusedOpcode _ | .unusedCompare2 _ _ _ | .unusedCompare6 _ _ _ | .unusedCompare7 _ _ _ => none

/-- Is the word of this instruction `Illegal` in the sense of 30_encoding.md R67? -/
def Instr.illegalUnder (policy : NotBbbPolicy) : Instr → Bool
  | .unusedOpcode _ | .unusedCompare2 _ _ _ | .unusedCompare6 _ _ _ | .unusedCompare7 _ _ _ => true
  | .notBbb _ _ _ => decide (policy = .fault)
  | .and _ _ _ | .or _ _ _ | .xor _ _ _ | .not _ _ | .add _ _ _ | .sub _ _ _ | .sha _ _ _ | .shl _ _ _
  | .cmplt _ _ _ | .cmple _ _ _ | .cmpeq _ _ _ | .cmpltu _ _ _ | .cmpleu _ _ _
  | .addi _ _ _ | .ld _ _ _ | .st _ _ _ | .movi _ _ | .movhi _ _ | .bz _ _ | .bnz _ _
  | .inPort _ _ | .outPort _ _ => false

/-- The lines "Encoding" of an instruction's rule: its word has the match under the mask, it is the word `w` put
together from the fields, and `w` decodes to the instruction. -/
def EncodedAs (i : Instr) (mask bits w : Word) : Prop := encode i &&& mask = bits ∧ encode i = w ∧ decode w = i

/-- The mnemonic of an instruction's row in spec/opcode_table.json. -/
def Instr.mnemonic : Instr → String
  | .and _ _ _ => "AND" | .or _ _ _ => "OR" | .xor _ _ _ => "XOR" | .not _ _ => "NOT"
  | .add _ _ _ => "ADD" | .sub _ _ _ => "SUB" | .sha _ _ _ => "SHA" | .shl _ _ _ => "SHL"
  | .cmplt _ _ _ => "CMPLT" | .cmple _ _ _ => "CMPLE" | .cmpeq _ _ _ => "CMPEQ"
  | .cmpltu _ _ _ => "CMPLTU" | .cmpleu _ _ _ => "CMPLEU"
  | .addi _ _ _ => "ADDI" | .ld _ _ _ => "LD" | .st _ _ _ => "ST"
  | .movi _ _ => "MOVI" | .movhi _ _ => "MOVHI" | .bz _ _ => "BZ" | .bnz _ _ => "BNZ"
  | .inPort _ _ => "IN" | .outPort _ _ => "OUT"
  | .unusedOpcode _ => "unused_1xxx"
  | .unusedCompare2 _ _ _ => "unused_0001_fff_010"
  | .unusedCompare6 _ _ _ => "unused_0001_fff_110"
  | .unusedCompare7 _ _ _ => "unused_0001_fff_111"
  | .notBbb _ _ _ => "NOT_with_bbb____000"

/-- A row of spec/opcode_table.json: its mnemonic, mask and match. -/
structure TableRow where
  mnemonic : String
  mask : Word
  bits : Word
  deriving DecidableEq, Repr

/-- The rows of operation code 0000, in the table's order; the NOT row before the row of R72 (30_encoding.md R66, R72). -/
def arithLogicRows : List TableRow :=
  [⟨"AND", 0xF038#16, 0x0000#16⟩, ⟨"OR", 0xF038#16, 0x0008#16⟩, ⟨"XOR", 0xF038#16, 0x0010#16⟩,
   ⟨"NOT", 0xF03F#16, 0x0018#16⟩, ⟨"ADD", 0xF038#16, 0x0020#16⟩, ⟨"SUB", 0xF038#16, 0x0028#16⟩,
   ⟨"SHA", 0xF038#16, 0x0030#16⟩, ⟨"SHL", 0xF038#16, 0x0038#16⟩]

/-- The rows of the comparisons (R66). -/
def compareRows : List TableRow :=
  [⟨"CMPLT", 0xF038#16, 0x1000#16⟩, ⟨"CMPLE", 0xF038#16, 0x1008#16⟩, ⟨"CMPEQ", 0xF038#16, 0x1018#16⟩,
   ⟨"CMPLTU", 0xF038#16, 0x1020#16⟩, ⟨"CMPLEU", 0xF038#16, 0x1028#16⟩]

/-- The rows of formats 2-Reg and 1-Reg (R66). -/
def immediateRows : List TableRow :=
  [⟨"ADDI", 0xF000#16, 0x2000#16⟩, ⟨"LD", 0xF000#16, 0x3000#16⟩, ⟨"ST", 0xF000#16, 0x4000#16⟩,
   ⟨"MOVI", 0xF100#16, 0x5000#16⟩, ⟨"MOVHI", 0xF100#16, 0x5100#16⟩, ⟨"BZ", 0xF100#16, 0x6000#16⟩,
   ⟨"BNZ", 0xF100#16, 0x6100#16⟩, ⟨"IN", 0xF100#16, 0x7000#16⟩, ⟨"OUT", 0xF100#16, 0x7100#16⟩]

/-- The rows of class "reserved" (R70 to R72). -/
def reservedRows : List TableRow :=
  [⟨"unused_1xxx", 0x8000#16, 0x8000#16⟩, ⟨"unused_0001_fff_010", 0xF038#16, 0x1010#16⟩,
   ⟨"unused_0001_fff_110", 0xF038#16, 0x1030#16⟩, ⟨"unused_0001_fff_111", 0xF038#16, 0x1038#16⟩,
   ⟨"NOT_with_bbb____000", 0xF038#16, 0x0018#16⟩]

/-- spec/opcode_table.json, in its order; a word belongs to the first row it matches ("Match the NOT row first"). -/
def opcodeTable : List TableRow := arithLogicRows ++ compareRows ++ immediateRows ++ reservedRows

/-- Does a word match a row? -/
def TableRow.accepts (r : TableRow) (w : Word) : Bool := w &&& r.mask == r.bits

namespace Machine

/-! ### What an instruction leaves unchanged -/

/-- Every register but `d` holds in `t` what it holds in `s`. -/
def RegsUnchangedBut (d : RegNum) (s t : State) : Prop := ∀ r, r ≠ d → t.reg r = s.reg r

/-- Every register holds in `t` what it holds in `s`. -/
def RegsUnchanged (s t : State) : Prop := ∀ r, t.reg r = s.reg r

/-- Every word of both memories reads in `t` as in `s`. -/
def MemoryUnchanged (s t : State) : Prop :=
  ∀ addr : Word, t.mem.read addr.toNat = s.mem.read addr.toNat ∧ t.imem.read addr.toNat = s.imem.read addr.toNat

/-- Every port of both spaces holds in `t` what it holds in `s`, the I/O trace is the same, and so are the outside
world's coming moves. -/
def PortsUnchanged (s t : State) : Prop :=
  (∀ p, t.heldInput p = s.heldInput p) ∧ (∀ p, t.outPort p = s.outPort p) ∧ t.trace = s.trace ∧
    t.portChanges = s.portChanges

/-- What an instruction that writes register `d` leaves unchanged: all but `d` and the pc. -/
def WritesOnlyReg (d : RegNum) (s t : State) : Prop :=
  RegsUnchangedBut d s t ∧ MemoryUnchanged s t ∧ PortsUnchanged s t ∧ t.params = s.params

/-- What a branch leaves unchanged: all but the pc. -/
def WritesOnlyPc (s t : State) : Prop :=
  RegsUnchanged s t ∧ MemoryUnchanged s t ∧ PortsUnchanged s t ∧ t.params = s.params

/-- What the outside world's move leaves unchanged: all but the ports that are one register and the moves to come
(70_reset_and_hazards.md R166). -/
def OnlySharedPortsChange (s t : State) : Prop :=
  RegsUnchanged s t ∧ MemoryUnchanged s t ∧
    (∀ p, s.ioShared p = false → t.heldInput p = s.heldInput p ∧ t.outPort p = s.outPort p) ∧
    t.trace = s.trace ∧ t.params = s.params

/-! ### Branches taken -/

/-- Instruction `i` is a branch that is taken in `s`, to `target` (45_branches.md R120). -/
def BranchTaken (i : Instr) (s : State) (target : Word) : Prop :=
  (∃ b n8, i = .bz b n8 ∧ s.reg b = 0#16 ∧ target = s.pc + n8.signExtend 16) ∨
  (∃ b n8, i = .bnz b n8 ∧ s.reg b ≠ 0#16 ∧ target = s.pc + n8.signExtend 16)

/-! ### Invariants -/

/-- A port that is one register has one home in the state: `inputs` does not list it, and INPUT and OUTPUT hold the
same (10_state.md R33). -/
def SharedPortsAgree (s : State) : Prop :=
  ∀ p, s.ioShared p = true → s.inputs.read p.toNat = none ∧ s.heldInput p = s.outPort p

/-- The value of the last OUT to `p` in a trace, oldest event first. -/
def lastOutput (p : Port) : List IoEvent → Option Word
  | [] => none
  | .input _ _ :: rest => lastOutput p rest
  | .output q v :: rest => (lastOutput p rest).or (if q = p then some v else none)

/-- Every output port with a register of its own holds the value of the last OUT to it in the trace, and none where
there is no such OUT (10_state.md R32). A port that is one register may hold what the outside world wrote. -/
def OutputsFollowTrace (s : State) : Prop := ∀ p, s.ioShared p = false → s.outPort p = lastOutput p s.trace

/-! ### The end of a run -/

/-- The run is over: pc = END_PC (70_reset_and_hazards.md R163). -/
def State.over (s : State) : Bool := decide (s.params.endPc = some s.pc)

/-- How far a run has come (70_reset_and_hazards.md R163). -/
inductive RunStatus where
  /-- The run is over, with its final state. -/
  | over (final : State)
  /-- A fault was raised in a state: the run stops there and is not over. -/
  | faulted (f : Fault) (at_ : State)
  /-- The model gave no meaning. -/
  | refused (r : Refusal)
  /-- Neither, after the steps allowed. -/
  | going (s : State)
  deriving DecidableEq, Repr

/-- A run of at most `n` steps from `s`, which ends at END_PC without fetching there (R163). -/
def runToEnd : Nat → State → RunStatus
  | 0, s => if s.over then .over s else .going s
  | n + 1, s =>
    if s.over then .over s
    else match step s with
      | .next t => runToEnd n t
      | .fault f => .faulted f s
      | .refused r => .refused r

/-- What a run makes visible (70_reset_and_hazards.md R167): the final R0 to R7, PC, MEM and OUTPUT, and the
I/O trace. Under harvard R167 does not say which memory MEM is: it is the data memory here, and the instruction
memory, which no step changes, is not observed (DESIGN CHOICE, log 16). -/
structure Observation where
  regs : Vector Word 8
  pc : Word
  mem : Cells
  outputs : Cells
  trace : List IoEvent
  deriving DecidableEq, Repr

/-- The observation of a state (R167). `mem` is MEM, under harvard the data memory alone (DESIGN CHOICE, log 16). -/
def State.observe (s : State) : Observation where
  regs := s.regs
  pc := s.pc
  mem := s.mem
  outputs := s.outputs
  trace := s.trace

end Machine

end Sys2Proof
end

