-- ==== Sys2Proof/Certificates/Slice0/Obligations.lean ====
section
/-! DEFINITION. The statements for the provers, from the numbered rules of spec/. Each docstring names the
rule or section it formalises; "the model's choice" marks what rests on a decision of the spec or of the
model, with its log entry. -/

open Sys2Proof Sys2Proof.Machine

/-! ### Encoding -/

/-- Words of 95_test_vectors.md sections 1 and 2.9. The valid ones decode to the instructions the spec writes beside
them. Beside FFFF and 1010 the spec writes "Illegal", and beside 0019 Illegal or NOT by the policy: that they decode
to the constructors of their rows of the opcode table is the model's choice (DESIGN CHOICE, log 12). -/
def Obligations.SpecWordsDecode : Prop :=
  decode 0x0AE4#16 = .add 5#3 3#3 4#3 ∧ decode 0x0F98#16 = .not 7#3 6#3 ∧
  decode 0x08F5#16 = .sha 4#3 3#3 5#3 ∧ decode 0x1A9C#16 = .cmpeq 5#3 2#3 4#3 ∧
  decode 0x2AFE#16 = .addi 5#3 3#3 0b111110#6 ∧ decode 0x3EBB#16 = .ld 7#3 2#3 0b111011#6 ∧
  decode 0x4EBB#16 = .st 7#3 2#3 0b111011#6 ∧ decode 0x5934#16 = .movhi 4#3 0x34#8 ∧
  decode 0x6AF5#16 = .bz 5#3 0xF5#8 ∧ decode 0x6BF5#16 = .bnz 5#3 0xF5#8 ∧
  decode 0x76BA#16 = .inPort 3#3 0xBA#8 ∧ decode 0x75BA#16 = .outPort 2#3 0xBA#8 ∧
  decode 0x0000#16 = .and 0#3 0#3 0#3 ∧ decode 0xFFFF#16 = .unusedOpcode 0x7FFF#15 ∧
  decode 0x1010#16 = .unusedCompare2 0#3 0#3 0#3 ∧ decode 0x0019#16 = .notBbb 0#3 0#3 1#3

/-- Every well-formed instruction is read back from its word, with all its operands (30_encoding.md R62 to R67). -/
def Obligations.DecodeOfEncode : Prop :=
  ∀ i : Instr, i.wellFormed = true → decode (encode i) = i

/-- Every one of the 65536 words is the word of what it decodes to, which is well-formed: no bit is dropped
(30_encoding.md R67, R73). -/
def Obligations.EncodeOfDecode : Prop :=
  ∀ w : Word, encode (decode w) = w ∧ (decode w).wellFormed = true

/-- Every word decodes to the row of spec/opcode_table.json that it matches first (R66, R67). -/
def Obligations.DecodeFollowsOpcodeTable : Prop :=
  ∀ w : Word, (opcodeTable.find? (·.accepts w)).map (·.mnemonic) = some (decode w).mnemonic

/-- R67: "No two of the 22 instructions share a word." -/
def Obligations.InstructionRowsDisjoint : Prop :=
  ∀ w : Word, ∀ r₁ ∈ arithLogicRows ++ compareRows ++ immediateRows,
    ∀ r₂ ∈ arithLogicRows ++ compareRows ++ immediateRows,
      r₁.accepts w = true → r₂.accepts w = true → r₁ = r₂

/-- Which words are Illegal under each policy, by their bits (30_encoding.md R67, R70, R71, R72; the spec's
decisions D1 to D3). -/
def Obligations.IllegalWords : Prop :=
  ∀ (policy : NotBbbPolicy) (w : Word),
    (decode w).illegalUnder policy = true ↔
      (w.getLsbD 15 = true ∨
        (w.extractLsb' 12 4 = 0b0001#4 ∧
          (w.extractLsb' 3 3 = 0b010#3 ∨ w.extractLsb' 3 3 = 0b110#3 ∨ w.extractLsb' 3 3 = 0b111#3)) ∨
        (policy = .fault ∧ w.extractLsb' 12 4 = 0b0000#4 ∧ w.extractLsb' 3 3 = 0b011#3 ∧
          w.extractLsb' 0 3 ≠ 0b000#3))

/-! ### The step -/

/-- A step is the outside world's move on the ports that are one register, then `exec` of the instruction the
fetched word decodes to (00_scope.md R16, 20_memory.md R47, 70_reset_and_hazards.md R166). With no change to come it
is `exec` in the same state. That the move is made at the start of a step is the model's choice (log 5). -/
def Obligations.StepRunsDecodedInstruction : Prop :=
  ∀ (s : State) (w : Word), s.codeWord s.pc = some w →
    step s = exec (decode w) s.outside ∧ (s.portChanges = .listed [] → step s = exec (decode w) s)

/-- The outside world's move between two instructions changes the ports that are one register, INPUT and OUTPUT
alike, and nothing else of the machine (70_reset_and_hazards.md R166, 20_memory.md R55, the spec's decision D11). The
form of its moves is the model's choice (log 5). -/
def Obligations.OutsideChangesOnlySharedPorts : Prop :=
  ∀ s : State,
    OnlySharedPortsChange s s.outside ∧ s.outside.pc = s.pc ∧
    (∀ p, s.ioShared p = true → s.outside.outPort p = (s.outsideMove p).or (s.outPort p) ∧
      s.outside.heldInput p = s.outside.outPort p) ∧
    (∀ p now rest, s.ioShared p = true → s.portChanges = .listed (now :: rest) →
      s.outsideMove p = now.lookup p ∧ s.outside.portChanges = .listed rest) ∧
    (s.portChanges = .listed [] → s.outside = s)

/-- A word placed by `withFetchWord` is what the next step runs, at the same pc and with the same registers. -/
def Obligations.PlacedWordIsFetched : Prop :=
  ∀ (s : State) (w : Word),
    step (s.withFetchWord 16 w.toNat) = exec (decode w) (s.withFetchWord 16 w.toNat).outside ∧
    (s.withFetchWord 16 w.toNat).pc = s.pc ∧ ∀ r, (s.withFetchWord 16 w.toNat).reg r = s.reg r

/-- A fetch from a word that nothing has written stops, naming the cell of the memory fetched from
(10_state.md R36, the spec's decision D5; log 3). -/
def Obligations.FetchOfUnwrittenWordStops : Prop :=
  ∀ s : State, s.codeWord s.pc = none →
    (s.params.memoryOrganisation = .unified → step s = .fault (.unwrittenRead (.mem s.pc))) ∧
    (s.params.memoryOrganisation = .harvard → step s = .fault (.unwrittenRead (.imem s.pc)))

/-! ### Arithmetic and logic -/

/-- AND, OR, XOR (41_arith_logic.md R91, R92, R93): bit i of the result is the operation on bit i of the
operands; encodings 0x0000, 0x0008, 0x0010 under 0xF038. -/
def Obligations.BitwiseResults : Prop :=
  ∀ (d a b : RegNum) (s : State),
    (EncodedAs (.and d a b) 0xF038#16 0x0000#16 (0b0000#4 ++ d ++ a ++ 0b000#3 ++ b) ∧
      ∃ t, exec (.and d a b) s = .next t ∧
        (∀ i < 16, (t.reg d).getLsbD i = ((s.reg a).getLsbD i && (s.reg b).getLsbD i)) ∧
        t.pc = s.pc + 1#16 ∧ WritesOnlyReg d s t) ∧
    (EncodedAs (.or d a b) 0xF038#16 0x0008#16 (0b0000#4 ++ d ++ a ++ 0b001#3 ++ b) ∧
      ∃ t, exec (.or d a b) s = .next t ∧
        (∀ i < 16, (t.reg d).getLsbD i = ((s.reg a).getLsbD i || (s.reg b).getLsbD i)) ∧
        t.pc = s.pc + 1#16 ∧ WritesOnlyReg d s t) ∧
    (EncodedAs (.xor d a b) 0xF038#16 0x0010#16 (0b0000#4 ++ d ++ a ++ 0b010#3 ++ b) ∧
      ∃ t, exec (.xor d a b) s = .next t ∧
        (∀ i < 16, (t.reg d).getLsbD i = ((s.reg a).getLsbD i ^^ (s.reg b).getLsbD i)) ∧
        t.pc = s.pc + 1#16 ∧ WritesOnlyReg d s t)

/-- NOT (41_arith_logic.md R94): every bit inverted; as numbers -Xs - 1 and 65535 - Xu. -/
def Obligations.NotResult : Prop :=
  ∀ (d a : RegNum) (s : State),
    EncodedAs (.not d a) 0xF03F#16 0x0018#16 (0b0000#4 ++ d ++ a ++ 0b011#3 ++ 0b000#3) ∧
    ∃ t, exec (.not d a) s = .next t ∧
      (∀ i < 16, (t.reg d).getLsbD i = !(s.reg a).getLsbD i) ∧
      (t.reg d).toNat = 65535 - (s.reg a).toNat ∧ (t.reg d).toInt = -(s.reg a).toInt - 1 ∧
      t.pc = s.pc + 1#16 ∧ WritesOnlyReg d s t

/-- ADD (41_arith_logic.md R95): the sum modulo 2^16, the same for naturals and integers. -/
def Obligations.AddResult : Prop :=
  ∀ (d a b : RegNum) (s : State),
    EncodedAs (.add d a b) 0xF038#16 0x0020#16 (0b0000#4 ++ d ++ a ++ 0b100#3 ++ b) ∧
    ∃ t, exec (.add d a b) s = .next t ∧
      (t.reg d).toNat = ((s.reg a).toNat + (s.reg b).toNat) % 65536 ∧
      t.reg d = BitVec.ofInt 16 ((s.reg a).toInt + (s.reg b).toInt) ∧
      t.pc = s.pc + 1#16 ∧ WritesOnlyReg d s t

/-- SUB (41_arith_logic.md R96): Ra minus Rb modulo 2^16, the same for naturals and integers. -/
def Obligations.SubResult : Prop :=
  ∀ (d a b : RegNum) (s : State),
    EncodedAs (.sub d a b) 0xF038#16 0x0028#16 (0b0000#4 ++ d ++ a ++ 0b101#3 ++ b) ∧
    ∃ t, exec (.sub d a b) s = .next t ∧
      ((t.reg d).toNat : Int) = (((s.reg a).toNat : Int) - (s.reg b).toNat) % 65536 ∧
      t.reg d = BitVec.ofInt 16 ((s.reg a).toInt - (s.reg b).toInt) ∧
      t.pc = s.pc + 1#16 ∧ WritesOnlyReg d s t

/-- SHA (41_arith_logic.md R97): both readings of the rule, as arithmetic (the quotient rounded down) and as
bits (zeros enter at the right, copies of the sign at the left); for k ≥ 0 it is SHL. -/
def Obligations.ShiftArithmeticResult : Prop :=
  ∀ (d a b : RegNum) (s : State) (k : Int), k = ((s.reg b).extractLsb' 0 5).toInt →
    EncodedAs (.sha d a b) 0xF038#16 0x0030#16 (0b0000#4 ++ d ++ a ++ 0b110#3 ++ b) ∧ -16 ≤ k ∧ k ≤ 15 ∧
    ∃ t, exec (.sha d a b) s = .next t ∧
      (0 ≤ k → (t.reg d).toNat = (s.reg a).toNat * 2 ^ k.toNat % 65536 ∧
        (∀ i < 16, (t.reg d).getLsbD i = (decide (k.toNat ≤ i) && (s.reg a).getLsbD (i - k.toNat))) ∧
        exec (.shl d a b) s = .next t) ∧
      (k < 0 → (t.reg d).toInt = (s.reg a).toInt / 2 ^ (-k).toNat ∧
        ∀ i < 16, (t.reg d).getLsbD i =
          if i + (-k).toNat < 16 then (s.reg a).getLsbD (i + (-k).toNat) else (s.reg a).getLsbD 15) ∧
      t.pc = s.pc + 1#16 ∧ WritesOnlyReg d s t

/-- SHL (41_arith_logic.md R98): both readings of the rule, as arithmetic and as bits (zeros enter). -/
def Obligations.ShiftLogicalResult : Prop :=
  ∀ (d a b : RegNum) (s : State) (k : Int), k = ((s.reg b).extractLsb' 0 5).toInt →
    EncodedAs (.shl d a b) 0xF038#16 0x0038#16 (0b0000#4 ++ d ++ a ++ 0b111#3 ++ b) ∧ -16 ≤ k ∧ k ≤ 15 ∧
    ∃ t, exec (.shl d a b) s = .next t ∧
      (0 ≤ k → (t.reg d).toNat = (s.reg a).toNat * 2 ^ k.toNat % 65536 ∧
        ∀ i < 16, (t.reg d).getLsbD i = (decide (k.toNat ≤ i) && (s.reg a).getLsbD (i - k.toNat))) ∧
      (k < 0 → (t.reg d).toNat = (s.reg a).toNat / 2 ^ (-k).toNat ∧
        ∀ i < 16, (t.reg d).getLsbD i =
          (decide (i + (-k).toNat < 16) && (s.reg a).getLsbD (i + (-k).toNat))) ∧
      t.pc = s.pc + 1#16 ∧ WritesOnlyReg d s t

/-- ADDI (42_add_immediate.md R100): Rau plus the signed immediate, modulo 2^16. -/
def Obligations.AddImmediateResult : Prop :=
  ∀ (d a : RegNum) (n6 : Imm6) (s : State),
    EncodedAs (.addi d a n6) 0xF000#16 0x2000#16 (0b0010#4 ++ d ++ a ++ n6) ∧
    ∃ t, exec (.addi d a n6) s = .next t ∧
      ((t.reg d).toNat : Int) = ((s.reg a).toNat + n6.toInt) % 65536 ∧
      t.pc = s.pc + 1#16 ∧ WritesOnlyReg d s t

/-! ### Comparisons -/

/-- CMPLT and CMPLE (43_compare.md R106, R107): 1 or 0 from the integer readings. -/
def Obligations.SignedCompareResults : Prop :=
  ∀ (d a b : RegNum) (s : State),
    (EncodedAs (.cmplt d a b) 0xF038#16 0x1000#16 (0b0001#4 ++ d ++ a ++ 0b000#3 ++ b) ∧
      ∃ t, exec (.cmplt d a b) s = .next t ∧
        t.reg d = (if (s.reg a).toInt < (s.reg b).toInt then 0x0001#16 else 0x0000#16) ∧
        t.pc = s.pc + 1#16 ∧ WritesOnlyReg d s t) ∧
    (EncodedAs (.cmple d a b) 0xF038#16 0x1008#16 (0b0001#4 ++ d ++ a ++ 0b001#3 ++ b) ∧
      ∃ t, exec (.cmple d a b) s = .next t ∧
        t.reg d = (if (s.reg a).toInt ≤ (s.reg b).toInt then 0x0001#16 else 0x0000#16) ∧
        t.pc = s.pc + 1#16 ∧ WritesOnlyReg d s t)

/-- CMPEQ (43_compare.md R108): equality of the vectors, which is equality of either reading. -/
def Obligations.CompareEqualResult : Prop :=
  ∀ (d a b : RegNum) (s : State),
    EncodedAs (.cmpeq d a b) 0xF038#16 0x1018#16 (0b0001#4 ++ d ++ a ++ 0b011#3 ++ b) ∧
    ∃ t, exec (.cmpeq d a b) s = .next t ∧
      t.reg d = (if s.reg a = s.reg b then 0x0001#16 else 0x0000#16) ∧
      (t.reg d = 0x0001#16 ↔ (s.reg a).toNat = (s.reg b).toNat) ∧
      (t.reg d = 0x0001#16 ↔ (s.reg a).toInt = (s.reg b).toInt) ∧
      t.pc = s.pc + 1#16 ∧ WritesOnlyReg d s t

/-- CMPLTU and CMPLEU (43_compare.md R109, R110): 1 or 0 from the natural readings. -/
def Obligations.UnsignedCompareResults : Prop :=
  ∀ (d a b : RegNum) (s : State),
    (EncodedAs (.cmpltu d a b) 0xF038#16 0x1020#16 (0b0001#4 ++ d ++ a ++ 0b100#3 ++ b) ∧
      ∃ t, exec (.cmpltu d a b) s = .next t ∧
        t.reg d = (if (s.reg a).toNat < (s.reg b).toNat then 0x0001#16 else 0x0000#16) ∧
        t.pc = s.pc + 1#16 ∧ WritesOnlyReg d s t) ∧
    (EncodedAs (.cmpleu d a b) 0xF038#16 0x1028#16 (0b0001#4 ++ d ++ a ++ 0b101#3 ++ b) ∧
      ∃ t, exec (.cmpleu d a b) s = .next t ∧
        t.reg d = (if (s.reg a).toNat ≤ (s.reg b).toNat then 0x0001#16 else 0x0000#16) ∧
        t.pc = s.pc + 1#16 ∧ WritesOnlyReg d s t)

/-! ### Moves -/

/-- MOVI (46_move_immediate.md R125): bits 7:0 are n8, bits 15:8 eight copies of n8[7]. -/
def Obligations.MoveImmediateResult : Prop :=
  ∀ (d : RegNum) (n8 : Imm8) (s : State),
    EncodedAs (.movi d n8) 0xF100#16 0x5000#16 (0b0101#4 ++ d ++ 0b0#1 ++ n8) ∧
    ∃ t, exec (.movi d n8) s = .next t ∧
      (t.reg d).toInt = n8.toInt ∧
      (∀ i < 16, (t.reg d).getLsbD i = if i < 8 then n8.getLsbD i else n8.getLsbD 7) ∧
      t.pc = s.pc + 1#16 ∧ WritesOnlyReg d s t

/-- MOVHI (46_move_immediate.md R126): the high byte becomes n8, the low byte is kept. -/
def Obligations.MoveHighImmediateResult : Prop :=
  ∀ (d : RegNum) (n8 : Imm8) (s : State),
    EncodedAs (.movhi d n8) 0xF100#16 0x5100#16 (0b0101#4 ++ d ++ 0b1#1 ++ n8) ∧
    ∃ t, exec (.movhi d n8) s = .next t ∧
      (t.reg d).extractLsb' 8 8 = n8 ∧ (t.reg d).extractLsb' 0 8 = (s.reg d).extractLsb' 0 8 ∧
      t.pc = s.pc + 1#16 ∧ WritesOnlyReg d s t

/-- MOVI of the low byte, then MOVHI of the high byte, loads any constant; the MOVI alone does when the high
byte is copies of bit 7 (46_move_immediate.md R127). -/
def Obligations.MoviMovhiLoadsConstant : Prop :=
  ∀ (d : RegNum) (k : Word) (s : State),
    ∃ t u, exec (.movi d (k.extractLsb' 0 8)) s = .next t ∧ exec (.movhi d (k.extractLsb' 8 8)) t = .next u ∧
      u.reg d = k ∧ u.pc = s.pc + 2#16 ∧ WritesOnlyReg d s u ∧
      ((∀ i < 16, 8 ≤ i → k.getLsbD i = k.getLsbD 7) → t.reg d = k)

/-! ### Memory -/

/-- The effective address of LD and ST is Rau plus the signed displacement, modulo 2^16 (44_memory_access.md
R115, 20_memory.md R44). -/
def Obligations.EffectiveAddressWraps : Prop :=
  ∀ (a : RegNum) (n6 : Imm6) (s : State),
    ((s.effectiveAddress a n6).toNat : Int) = ((s.reg a).toNat + n6.toInt) % 65536

/-- LD from a word that holds `v` (44_memory_access.md R116). -/
def Obligations.LoadResult : Prop :=
  ∀ (d a : RegNum) (n6 : Imm6) (s : State) (v : Word), s.dataWord (s.effectiveAddress a n6) = some v →
    EncodedAs (.ld d a n6) 0xF000#16 0x3000#16 (0b0011#4 ++ d ++ a ++ n6) ∧
    ∃ t, exec (.ld d a n6) s = .next t ∧ t.reg d = v ∧ t.pc = s.pc + 1#16 ∧ WritesOnlyReg d s t

/-- LD from a word that nothing has written stops and names the address (10_state.md R36, the spec's decision
D5; log 3). -/
def Obligations.LoadOfUnwrittenWordStops : Prop :=
  ∀ (d a : RegNum) (n6 : Imm6) (s : State), s.dataWord (s.effectiveAddress a n6) = none →
    exec (.ld d a n6) s = .fault (.unwrittenRead (.mem (s.effectiveAddress a n6)))

/-- ST writes the word at the effective address and no other (44_memory_access.md R117). -/
def Obligations.StoreResult : Prop :=
  ∀ (b a : RegNum) (n6 : Imm6) (s : State),
    EncodedAs (.st b a n6) 0xF000#16 0x4000#16 (0b0100#4 ++ b ++ a ++ n6) ∧
    ∃ t, exec (.st b a n6) s = .next t ∧
      t.dataWord (s.effectiveAddress a n6) = some (s.reg b) ∧
      (∀ addr, addr ≠ s.effectiveAddress a n6 → t.dataWord addr = s.dataWord addr) ∧
      (∀ addr : Word, t.imem.read addr.toNat = s.imem.read addr.toNat) ∧
      t.pc = s.pc + 1#16 ∧ RegsUnchanged s t ∧ PortsUnchanged s t ∧ t.params = s.params

/-- A load of an address just stored to returns the value stored (20_memory.md R48 (a)). -/
def Obligations.LoadAfterStoreReturnsValue : Prop :=
  ∀ (b a d c : RegNum) (n m : Imm6) (s t : State), exec (.st b a n) s = .next t →
    t.effectiveAddress c m = s.effectiveAddress a n →
    ∃ u, exec (.ld d c m) t = .next u ∧ u.reg d = s.reg b

/-- In unified memory a word stored at pc + 1 is the next instruction executed (20_memory.md R51, the spec's
decision D10). -/
def Obligations.StoreIntoNextInstructionIsFetched : Prop :=
  ∀ (s t : State) (w : Word) (b a : RegNum) (n6 : Imm6), s.params.memoryOrganisation = .unified →
    s.codeWord s.pc = some w → decode w = .st b a n6 → s.effectiveAddress a n6 = s.pc + 1#16 →
    step s = .next t → step t = exec (decode (s.reg b)) t.outside

/-- Under harvard no step changes what is fetched at any address (20_memory.md R52, the spec's decision D10). -/
def Obligations.HarvardProgramNeverChanges : Prop :=
  ∀ s t : State, s.params.memoryOrganisation = .harvard → step s = .next t →
    ∀ addr, t.codeWord addr = s.codeWord addr

/-- A step changes memory only by ST, and then only the word at the effective address (20_memory.md R43). That no
other agent writes memory is the spec's decision D11 in R55 (log 13, DEDUCED). -/
def Obligations.OnlyStoreChangesMemory : Prop :=
  ∀ s t : State, step s = .next t →
    MemoryUnchanged s t ∨
    ∃ w b a n6, s.codeWord s.pc = some w ∧ decode w = .st b a n6 ∧
      t.dataWord (s.effectiveAddress a n6) = some (s.reg b) ∧
      (∀ addr, addr ≠ s.effectiveAddress a n6 → t.dataWord addr = s.dataWord addr) ∧
      ∀ addr : Word, t.imem.read addr.toNat = s.imem.read addr.toNat

/-! ### Control transfer -/

/-- BZ (45_branches.md R120, R121): to the branch's own address plus the signed displacement when all sixteen bits of
Rb are 0, else to the next instruction; nothing else changes. That the target is taken modulo 2^16 is the spec's own
decision D7 (log 14, DEDUCED). -/
def Obligations.BranchIfZeroResult : Prop :=
  ∀ (b : RegNum) (n8 : Imm8) (s : State),
    EncodedAs (.bz b n8) 0xF100#16 0x6000#16 (0b0110#4 ++ b ++ 0b0#1 ++ n8) ∧
    ∃ t, exec (.bz b n8) s = .next t ∧
      (s.reg b = 0x0000#16 → (t.pc.toNat : Int) = (s.pc.toNat + n8.toInt) % 65536) ∧
      (s.reg b ≠ 0x0000#16 → t.pc = s.pc + 1#16) ∧ WritesOnlyPc s t

/-- BNZ (45_branches.md R120, R122): as BZ, when some bit of Rb is 1. That the target is taken modulo 2^16 is the
spec's own decision D7 (log 14, DEDUCED). -/
def Obligations.BranchIfNotZeroResult : Prop :=
  ∀ (b : RegNum) (n8 : Imm8) (s : State),
    EncodedAs (.bnz b n8) 0xF100#16 0x6100#16 (0b0110#4 ++ b ++ 0b1#1 ++ n8) ∧
    ∃ t, exec (.bnz b n8) s = .next t ∧
      (s.reg b ≠ 0x0000#16 → (t.pc.toNat : Int) = (s.pc.toNat + n8.toInt) % 65536) ∧
      (s.reg b = 0x0000#16 → t.pc = s.pc + 1#16) ∧ WritesOnlyPc s t

/-- Every step that answers a next state leaves the pc one further, but for a branch that is taken, which leaves
it at the branch's target (10_state.md R25). -/
def Obligations.PcAdvancesUnlessBranchTaken : Prop :=
  ∀ (s t : State) (w : Word), s.codeWord s.pc = some w → step s = .next t →
    (∀ target, BranchTaken (decode w) s target → t.pc = target) ∧
    ((∀ target, ¬ BranchTaken (decode w) s target) → t.pc = s.pc + 1#16)

/-- A branch to itself whose condition holds is a hang: any number of steps leaves the pc, the registers, memory and
the trace as they are (45_branches.md R121, R122, corner cases), and the whole state where the outside world changes
no shared port (log 5). -/
def Obligations.SelfBranchHangs : Prop :=
  ∀ (s : State) (w : Word) (b : RegNum), s.codeWord s.pc = some w →
    (decode w = .bz b 0x00#8 ∧ s.reg b = 0x0000#16 ∨ decode w = .bnz b 0x00#8 ∧ s.reg b ≠ 0x0000#16) →
    ∀ n, ∃ t, core.run n s = .next t ∧ t.pc = s.pc ∧ OnlySharedPortsChange s t ∧
      (s.portChanges = .listed [] → t = s)

/-- A BZ and a BNZ of one register to one target, one after the other, are an unconditional branch: in one step
or two the pc is at the target, and nothing else has changed (30_encoding.md R79) but the ports that the outside
world may change between two instructions (log 5). -/
def Obligations.BranchPairIsUnconditional : Prop :=
  ∀ (s : State) (w₁ w₂ target : Word) (b : RegNum) (n m : Imm8), s.codeWord s.pc = some w₁ →
    s.codeWord (s.pc + 1#16) = some w₂ → decode w₁ = .bz b n → decode w₂ = .bnz b m →
    s.pc + n.signExtend 16 = target → s.pc + 1#16 + m.signExtend 16 = target →
    ∃ k t, (k = 1 ∨ k = 2) ∧ core.run k s = .next t ∧ t.pc = target ∧ OnlySharedPortsChange s t ∧
      (s.portChanges = .listed [] → WritesOnlyPc s t)

/-! ### Ports -/

/-- IN (47_input_output.md R130, 20_memory.md R53, R54; 10_state.md R33): from a port that is one register Rd takes
what the register holds. From another port it takes the answer the launch lists for this IN, else what the port holds,
else the oracle's answer, a free value. The ports are unchanged and the event is seen. The form of the oracle is the
model's choice (DESIGN CHOICE, log 5). -/
def Obligations.InputResult : Prop :=
  ∀ (d : RegNum) (p : Port) (s : State),
    EncodedAs (.inPort d p) 0xF100#16 0x7000#16 (0b0111#4 ++ d ++ 0b0#1 ++ p) ∧
    ∃ t, exec (.inPort d p) s = .next t ∧
      (s.ioShared p = true →
        t.reg d = (s.outPort p).getD (Config.inputOracle s.params.inputOracle.device [] p)) ∧
      (s.ioShared p = false →
        t.reg d = ((s.listedAnswer p).or (s.heldInput p)).getD
          (Config.inputOracle s.params.inputOracle.device s.trace p)) ∧
      t.trace = s.trace ++ [.input p (t.reg d)] ∧
      t.pc = s.pc + 1#16 ∧ RegsUnchangedBut d s t ∧ MemoryUnchanged s t ∧
      (∀ q, t.heldInput q = s.heldInput q) ∧ (∀ q, t.outPort q = s.outPort q) ∧
      t.portChanges = s.portChanges ∧ t.params = s.params

/-- The answers a launch lists for a port are what the INs from it read, in turn, and an IN from another port uses up
none of them (70_reset_and_hazards.md R161, 20_memory.md R53; the form of the list is the model's choice, log 5). -/
def Obligations.InputsAnsweredInTurn : Prop :=
  ∀ (d e f : RegNum) (p q : Port) (v w : Word) (s : State), s.ioShared p = false → q ≠ p →
    (answersFor p s.params.inputOracle.answers)[inputCount p s.trace]? = some v →
    (answersFor p s.params.inputOracle.answers)[inputCount p s.trace + 1]? = some w →
    ∃ t u x, exec (.inPort d p) s = .next t ∧ t.reg d = v ∧
      exec (.inPort e q) t = .next u ∧ exec (.inPort f p) u = .next x ∧ x.reg f = w

/-- OUT (47_input_output.md R131, 20_memory.md R54): OUTPUT[n8] takes Rb, no other output port changes, and the
event is seen. INPUT changes only at n8, and only where the two are one register (10_state.md R33). -/
def Obligations.OutputResult : Prop :=
  ∀ (b : RegNum) (p : Port) (s : State),
    EncodedAs (.outPort b p) 0xF100#16 0x7100#16 (0b0111#4 ++ b ++ 0b1#1 ++ p) ∧
    ∃ t, exec (.outPort b p) s = .next t ∧
      t.outPort p = some (s.reg b) ∧ (∀ q, q ≠ p → t.outPort q = s.outPort q) ∧
      (∀ q, q ≠ p → t.heldInput q = s.heldInput q) ∧
      (s.ioShared p = false → t.heldInput p = s.heldInput p) ∧
      (s.ioShared p = true → t.heldInput p = some (s.reg b)) ∧
      t.trace = s.trace ++ [.output p (s.reg b)] ∧
      t.pc = s.pc + 1#16 ∧ RegsUnchanged s t ∧ MemoryUnchanged s t ∧ t.portChanges = s.portChanges ∧
      t.params = s.params

/-- IN after OUT to the same port (10_state.md R33, the spec's decision D9). Where the port is one register, IN reads
the value written, or what the outside world has written since. Where it is two, IN reads the answer and the held
value that it would have read without the OUT, or any value (the form of the oracle is the model's choice, log 5). -/
def Obligations.InputAfterOutput : Prop :=
  ∀ (b d : RegNum) (p : Port) (s t : State), exec (.outPort b p) s = .next t →
    (s.ioShared p = true → ∃ u, exec (.inPort d p) t = .next u ∧ u.reg d = s.reg b) ∧
    (s.ioShared p = true →
      ∃ u, exec (.inPort d p) t.outside = .next u ∧ u.reg d = (t.outsideMove p).getD (s.reg b)) ∧
    (s.ioShared p = false →
      ∃ u, exec (.inPort d p) t = .next u ∧ u.reg d = ((s.listedAnswer p).or (s.heldInput p)).getD
        (Config.inputOracle s.params.inputOracle.device t.trace p))

/-- A value the outside world presents at an input port is what the port holds and what INs from it read once the
answers listed for it have been given; in a port that is one register it is what OUTPUT holds too, and no other port
changes (70_reset_and_hazards.md R166, 10_state.md R33, 20_memory.md R55). -/
def Obligations.PresentedInputIsRead : Prop :=
  ∀ (d : RegNum) (p : Port) (v : Word) (s : State),
    (∃ t, exec (.inPort d p) (s.presentInput p v) = .next t ∧
      (s.ioShared p = true → t.reg d = v) ∧ (s.ioShared p = false → t.reg d = (s.listedAnswer p).getD v)) ∧
    (s.presentInput p v).heldInput p = some v ∧
    (s.ioShared p = true → (s.presentInput p v).outPort p = some v) ∧
    (s.ioShared p = false → (s.presentInput p v).outPort p = s.outPort p) ∧
    (∀ q, q ≠ p → (s.presentInput p v).heldInput q = s.heldInput q ∧
      (s.presentInput p v).outPort q = s.outPort q) ∧
    RegsUnchanged s (s.presentInput p v) ∧ MemoryUnchanged s (s.presentInput p v) ∧
    (s.presentInput p v).pc = s.pc ∧ (s.presentInput p v).trace = s.trace

/-! ### Words that no instruction uses -/

/-- The words of R70 and R71 stop with `IllegalInstruction` and the word (30_encoding.md R70, R71; the spec's
decisions D1 and D2). -/
def Obligations.UnusedWordsStop : Prop :=
  ∀ s : State,
    (∀ rest, exec (.unusedOpcode rest) s = .fault (.illegalInstruction (1#1 ++ rest))) ∧
    (∀ d a b, exec (.unusedCompare2 d a b) s =
      .fault (.illegalInstruction (0b0001#4 ++ d ++ a ++ 0b010#3 ++ b))) ∧
    (∀ d a b, exec (.unusedCompare6 d a b) s =
      .fault (.illegalInstruction (0b0001#4 ++ d ++ a ++ 0b110#3 ++ b))) ∧
    (∀ d a b, exec (.unusedCompare7 d a b) s =
      .fault (.illegalInstruction (0b0001#4 ++ d ++ a ++ 0b111#3 ++ b)))

/-- NOT with bbb not 000 (30_encoding.md R72, the spec's decision D3): it stops under `fault`, and is NOT Rd, Ra
under `ignore`. -/
def Obligations.NotWithBbbFollowsPolicy : Prop :=
  ∀ (d a b : RegNum) (s : State),
    (s.params.notBbbPolicy = .fault →
      exec (.notBbb d a b) s = .fault (.illegalInstruction (0b0000#4 ++ d ++ a ++ 0b011#3 ++ b))) ∧
    (s.params.notBbbPolicy = .ignore →
      ∃ t, exec (.notBbb d a b) s = .next t ∧ exec (.not d a) s = .next t ∧
        (∀ i < 16, (t.reg d).getLsbD i = !(s.reg a).getLsbD i) ∧ t.pc = s.pc + 1#16 ∧ WritesOnlyReg d s t)

/-! ### The whole machine -/

/-- Which registers an instruction reads and writes (10_state.md R23): only the register written changes; a
register neither read nor written plays no part and is carried through; a register written but not read plays
no part by its old content. -/
def Obligations.RegistersReadAndWritten : Prop :=
  ∀ (i : Instr) (s : State),
    (∀ t r, exec i s = .next t → i.regWritten ≠ some r → t.reg r = s.reg r) ∧
    (∀ t r v, exec i s = .next t → r ∉ i.regsRead → i.regWritten ≠ some r →
      exec i (s.setReg r v) = .next (t.setReg r v)) ∧
    (∀ t r v, exec i s = .next t → r ∉ i.regsRead → i.regWritten = some r →
      exec i (s.setReg r v) = .next t)

/-- Every legal instruction completes, LD where its word has been written: nothing else can stop the machine
(10_state.md R23, "Every instruction is available at all times"; 60_exceptions.md R140, R146). -/
def Obligations.LegalInstructionsComplete : Prop :=
  ∀ (s : State) (w : Word), s.codeWord s.pc = some w → (decode w).illegalUnder s.params.notBbbPolicy = false →
    (∀ d a n6, decode w = .ld d a n6 → s.dataWord (s.effectiveAddress a n6) ≠ none) →
    ∃ t, step s = .next t

/-- A step stops only in the two situations of 60_exceptions.md R141, in the order of R143, and is never refused:
an unwritten word fetched, else an illegal word, else an unwritten word loaded (the spec's decisions D1 to D5
and D12; log 9). -/
def Obligations.StopsAreTheTwoModelFaults : Prop :=
  ∀ s : State,
    (∀ r, step s ≠ .refused r) ∧
    ∀ f, step s = .fault f →
      (s.codeWord s.pc = none ∧ f = .unwrittenRead (s.codeCell s.pc)) ∨
      ∃ w, s.codeWord s.pc = some w ∧
        (((decode w).illegalUnder s.params.notBbbPolicy = true ∧ f = .illegalInstruction w) ∨
          ∃ d a n6, decode w = .ld d a n6 ∧ s.dataWord (s.effectiveAddress a n6) = none ∧
            f = .unwrittenRead (.mem (s.effectiveAddress a n6)))

/-- Every step keeps the canonical form of all four spaces and the parameters, and only adds to the I/O trace, by
at most one event (00_scope.md R6, 10_state.md R20, 20_memory.md R43, 70_reset_and_hazards.md R167). -/
def Obligations.StepKeepsCanonicalForm : Prop :=
  ∀ s t : State, s.wf = true → step s = .next t →
    t.wf = true ∧ t.params = s.params ∧ (t.trace = s.trace ∨ ∃ e, t.trace = s.trace ++ [e])

/-- Every step keeps every port that is one register at one home, held or not, with INPUT and OUTPUT the same
(10_state.md R33); after the step the register holds what an OUT of the step wrote, else what the outside world wrote
before it, else what it held. That the register's home is `outputs` is the model's choice (log 5). -/
def Obligations.StepKeepsSharedPortsAgreeing : Prop :=
  ∀ s t : State, SharedPortsAgree s → step s = .next t →
    SharedPortsAgree t ∧
    ∀ p w, s.ioShared p = true → s.codeWord s.pc = some w →
      (∀ b, decode w = .outPort b p → t.heldInput p = some (s.reg b)) ∧
      ((∀ b, decode w ≠ .outPort b p) → t.heldInput p = (s.outsideMove p).or (s.outPort p))

/-- Every step keeps every output port that has a register of its own at the value of the last OUT to it, and at none
where there was no OUT (10_state.md R32; logs 6 and 8). A port that is one register holds what the OUT of a step wrote,
and other instructions leave it to the outside world (log 5); the premise says nothing of these ports, and every launch
meets it (`Obligations.LaunchMeetsInvariants`). -/
def Obligations.StepKeepsOutputsAtLastOut : Prop :=
  ∀ s t : State, OutputsFollowTrace s → step s = .next t →
    OutputsFollowTrace t ∧
    ∀ p, s.ioShared p = true →
      (∀ v, t.trace = s.trace ++ [.output p v] → t.outPort p = some v) ∧
      ((∀ v, t.trace ≠ s.trace ++ [.output p v]) → t.outPort p = (s.outsideMove p).or (s.outPort p))

/-- The three invariants hold after reset. -/
def Obligations.ResetMeetsInvariants : Prop :=
  State.reset.wf = true ∧ SharedPortsAgree State.reset ∧ OutputsFollowTrace State.reset

/-- The three invariants hold in the state of every launch, whatever ports it shares and lists. -/
def Obligations.LaunchMeetsInvariants : Prop :=
  ∀ l : Launch, l.initial.wf = true ∧ SharedPortsAgree l.initial ∧ OutputsFollowTrace l.initial

/-! ### Reset, launch and the end of a run -/

/-- After reset no memory word and no port holds a value, and the parameters are the defaults of 00_scope.md R6
(70_reset_and_hazards.md R160). Registers zero, PC zero, no END_PC and no change to come in a shared port, of which
there is none, are the model's choice (logs 1, 2, 7, 5). -/
def Obligations.ResetState : Prop :=
  (∀ addr : Word, State.reset.dataWord addr = none ∧ State.reset.codeWord addr = none) ∧
  (∀ p, State.reset.heldInput p = none ∧ State.reset.outPort p = none ∧ State.reset.ioShared p = false) ∧
  State.reset.params.inputOracle.answers = [] ∧ State.reset.portChanges = .listed [] ∧
  State.reset.params.memoryOrganisation = .unified ∧ State.reset.params.notBbbPolicy = .fault ∧
  (∀ r, State.reset.reg r = 0x0000#16) ∧ State.reset.pc = 0x0000#16 ∧ State.reset.params.endPc = none

/-- The launch state (70_reset_and_hazards.md R161, the spec's decision D16): the pc, the parameters and the outside
world's moves as given; the memory fetched from holds at each address the last word the launch gives for it and no
other word; under harvard the data memory holds the words of its part and no other, and under unified it is the one
memory; each input port listed holds the last value given, and no other port holds one; each register named holds the
last value given, and the others 0 (the model's choice, log 1); the state is canonical and its trace empty (log 8). -/
def Obligations.LaunchState : Prop :=
  ∀ l : Launch,
    (l.initial.pc = l.resetPc ∧ l.initial.params = l.params ∧ l.initial.portChanges = l.portChanges ∧
      l.initial.trace = [] ∧ l.initial.wf = true) ∧
    (∀ before after addr v, l.image = before ++ (addr, v) :: after → (∀ kv ∈ after, kv.1 ≠ addr) →
      (l.params.memoryOrganisation = .unified → ∀ kv ∈ l.dataImage, kv.1 ≠ addr) →
      l.initial.codeWord addr = some v) ∧
    (∀ before after addr v, l.dataImage = before ++ (addr, v) :: after → (∀ kv ∈ after, kv.1 ≠ addr) →
      l.initial.dataWord addr = some v) ∧
    (∀ addr, (∀ kv ∈ l.image, kv.1 ≠ addr) →
      (l.params.memoryOrganisation = .unified → ∀ kv ∈ l.dataImage, kv.1 ≠ addr) →
      l.initial.codeWord addr = none) ∧
    (l.params.memoryOrganisation = .harvard → ∀ addr, (∀ kv ∈ l.dataImage, kv.1 ≠ addr) →
      l.initial.dataWord addr = none) ∧
    (l.params.memoryOrganisation = .unified → ∀ addr, l.initial.dataWord addr = l.initial.codeWord addr) ∧
    (∀ before after p v, l.inputs = before ++ (p, v) :: after → (∀ kv ∈ after, kv.1 ≠ p) →
      l.initial.heldInput p = some v) ∧
    (∀ p, (∀ kv ∈ l.inputs, kv.1 ≠ p) → l.initial.heldInput p = none ∧ l.initial.outPort p = none) ∧
    (∀ p, l.initial.ioShared p = false → l.initial.outPort p = none) ∧
    (∀ before after r v, l.regs = before ++ (r, v) :: after → (∀ kv ∈ after, kv.1 ≠ r) →
      l.initial.reg r = v) ∧
    (∀ r, (∀ kv ∈ l.regs, kv.1 ≠ r) → l.initial.reg r = 0x0000#16)

/-- A run that is over is at the first state with pc = END_PC, reached by that many steps, and the instruction
there has not been executed (70_reset_and_hazards.md R163, the spec's decision D6). -/
def Obligations.RunIsOverAtEndPc : Prop :=
  ∀ (n : Nat) (s f : State), runToEnd n s = .over f →
    f.params.endPc = some f.pc ∧
    ∃ k ≤ n, core.run k s = .next f ∧ ∀ j < k, ∀ u, core.run j s = .next u → u.params.endPc ≠ some u.pc

/-- Without END_PC no run is ever over (70_reset_and_hazards.md R163, the spec's decision D6). -/
def Obligations.NoEndPcIsNeverOver : Prop :=
  ∀ (n : Nat) (s f : State), s.params.endPc = none → runToEnd n s ≠ .over f
end

