-- ==== Sys2Proof/Laws/Cells.lean ====
section
/-! SUPPORT. An address space: a write is read back, leaves every other address alone, and keeps the
canonical form. -/

namespace Sys2Proof.Machine

/-- A read after a write: the value written at its address, the old value at every other. -/
theorem Cells.read_write (c : Cells) (a b : Nat) (w : Word) :
    (c.write a w).read b = if a = b then some w else c.read b := by
  induction c with
  | nil => simp [Cells.write, Cells.read]
  | cons kv rest ih =>
    obtain ⟨k, v⟩ := kv
    simp only [Cells.write]
    split
    · simp [Cells.read]
    · split
      · rename_i h; subst h; simp only [Cells.read]; split <;> rfl
      · rename_i h1 h2
        simp only [Cells.read, ih]
        by_cases hk : k = b
        · have : a ≠ b := by omega
          simp [hk, this]
        · simp [hk]

@[simp] theorem Cells.read_write_self (c : Cells) (a : Nat) (w : Word) : (c.write a w).read a = some w := by
  simp [Cells.read_write]

theorem Cells.read_write_of_ne (c : Cells) {a b : Nat} (w : Word) (h : a ≠ b) :
    (c.write a w).read b = c.read b := by simp [Cells.read_write, h]

theorem Cells.risesFrom_mono {c : Cells} {lo hi : Nat} (h : lo ≤ hi) (hc : Cells.risesFrom c hi = true) :
    Cells.risesFrom c lo = true := by
  cases c with
  | nil => rfl
  | cons kv rest =>
    simp only [Cells.risesFrom, Bool.and_eq_true, decide_eq_true_eq] at hc ⊢
    exact ⟨by omega, hc.2⟩

theorem Cells.risesFrom_write (c : Cells) (a lo : Nat) (w : Word) (hlo : lo ≤ a)
    (hc : Cells.risesFrom c lo = true) : Cells.risesFrom (c.write a w) lo = true := by
  induction c generalizing lo with
  | nil => simp [Cells.write, Cells.risesFrom, hlo]
  | cons kv rest ih =>
    obtain ⟨k, v⟩ := kv
    simp only [Cells.risesFrom, Bool.and_eq_true, decide_eq_true_eq] at hc
    simp only [Cells.write]
    split
    · rename_i h; simp [Cells.risesFrom, hlo, hc.2, Nat.succ_le_of_lt h]
    · split
      · rename_i h; subst h; simp [Cells.risesFrom, hlo, hc.2]
      · simp only [Cells.risesFrom, Bool.and_eq_true, decide_eq_true_eq]
        exact ⟨hc.1, ih (k + 1) (by omega) hc.2⟩

theorem Cells.all_below_write (c : Cells) (a size : Nat) (w : Word) (ha : a < size)
    (hc : c.all (fun kv => decide (kv.1 < size)) = true) :
    (c.write a w).all (fun kv => decide (kv.1 < size)) = true := by
  induction c with
  | nil => simp [Cells.write, ha]
  | cons kv rest ih =>
    obtain ⟨k, v⟩ := kv
    simp only [List.all_cons, Bool.and_eq_true, decide_eq_true_eq] at hc
    simp only [Cells.write]
    split
    · simp [ha, hc.1]; simpa using hc.2
    · split
      · simp [ha]; simpa using hc.2
      · simp only [List.all_cons, Bool.and_eq_true, decide_eq_true_eq]; exact ⟨hc.1, ih hc.2⟩

/-- A write below the size keeps the canonical form. -/
theorem Cells.wf_write {c : Cells} {a size : Nat} (w : Word) (ha : a < size) (hc : c.wf size = true) :
    (c.write a w).wf size = true := by
  simp only [Cells.wf, Bool.and_eq_true] at hc ⊢
  exact ⟨Cells.risesFrom_write c a 0 w (Nat.zero_le _) hc.1, Cells.all_below_write c a size w ha hc.2⟩

/-- A read after a write of a value there may be. -/
theorem Cells.read_writeIf (c : Cells) (a b : Nat) (v : Option Word) :
    (c.writeIf a v).read b = if a = b then v.or (c.read b) else c.read b := by
  cases v <;> simp [Cells.writeIf, Cells.read_write]

/-- A write below the size, if there is one, keeps the canonical form. -/
theorem Cells.wf_writeIf {c : Cells} {a size : Nat} (v : Option Word) (ha : a < size) (hc : c.wf size = true) :
    (c.writeIf a v).wf size = true := by
  cases v with
  | some w => exact Cells.wf_write w ha hc
  | none => exact hc

/-- A read after an update: what the move writes at the ports it is given, the old value elsewhere. -/
theorem Cells.read_update (move : Port → Option Word) (ports : List Port) (c : Cells) (q : Port) :
    (c.update move ports).read q.toNat = if q ∈ ports then (move q).or (c.read q.toNat) else c.read q.toNat := by
  induction ports generalizing c with
  | nil => simp [Cells.update]
  | cons p rest ih =>
    rw [Cells.update, ih, Cells.read_writeIf]
    by_cases hp : p = q
    · subst hp; cases move p <;> simp
    · have hq : ¬ q = p := fun h => hp h.symm
      simp [hq, BitVec.toNat_inj, hp]

/-- An update keeps the canonical form of a space of ports. -/
theorem Cells.wf_update (move : Port → Option Word) (ports : List Port) {c : Cells} (hc : c.wf portCount = true) :
    (c.update move ports).wf portCount = true := by
  induction ports generalizing c with
  | nil => exact hc
  | cons p rest ih => exact ih (Cells.wf_writeIf _ p.isLt hc)

/-- A move that writes nothing leaves a space as it is. -/
theorem Cells.update_none (ports : List Port) (c : Cells) : c.update (fun _ => none) ports = c := by
  induction ports with
  | nil => rfl
  | cons p rest ih => exact ih

/-- An address outside the space is never listed in a canonical space. -/
theorem Cells.read_of_wf {c : Cells} {a size : Nat} (ha : size ≤ a) (hc : c.wf size = true) : c.read a = none := by
  simp only [Cells.wf, Bool.and_eq_true] at hc
  have h := hc.2
  clear hc
  induction c with
  | nil => rfl
  | cons kv rest ih =>
    simp only [List.all_cons, Bool.and_eq_true, decide_eq_true_eq] at h
    have : kv.1 ≠ a := by omega
    simp [Cells.read, this, ih h.2]

end Sys2Proof.Machine
end

