-- ==== Sys2Proof/Laws/Encoding.lean ====
section
/-! SUPPORT. The fields of an encoded word, format by format, and the word rebuilt from its fields. -/

namespace Sys2Proof

section
variable (c : BitVec 4) (d a b f : BitVec 3) (e : BitVec 1) (n6 : Imm6) (n8 : Imm8) (w : Word)

@[simp] theorem fieldC_enc3 : fieldC (enc3 c d a f b) = c := by
  apply BitVec.eq_of_getLsbD_eq; intro i hi; simp [fieldC, enc3]; grind
@[simp] theorem fieldD_enc3 : fieldD (enc3 c d a f b) = d := by
  apply BitVec.eq_of_getLsbD_eq; intro i hi; simp [fieldD, enc3]; grind
@[simp] theorem fieldA_enc3 : fieldA (enc3 c d a f b) = a := by
  apply BitVec.eq_of_getLsbD_eq; intro i hi; simp [fieldA, enc3]; grind
@[simp] theorem fieldF_enc3 : fieldF (enc3 c d a f b) = f := by
  apply BitVec.eq_of_getLsbD_eq; intro i hi; simp [fieldF, enc3]; grind
@[simp] theorem fieldB_enc3 : fieldB (enc3 c d a f b) = b := by
  apply BitVec.eq_of_getLsbD_eq; intro i hi; simp [fieldB, enc3]; grind

@[simp] theorem fieldC_enc2 : fieldC (enc2 c d a n6) = c := by
  apply BitVec.eq_of_getLsbD_eq; intro i hi; simp [fieldC, enc2]; grind
@[simp] theorem fieldD_enc2 : fieldD (enc2 c d a n6) = d := by
  apply BitVec.eq_of_getLsbD_eq; intro i hi; simp [fieldD, enc2]; grind
@[simp] theorem fieldA_enc2 : fieldA (enc2 c d a n6) = a := by
  apply BitVec.eq_of_getLsbD_eq; intro i hi; simp [fieldA, enc2]; grind
@[simp] theorem fieldN6_enc2 : fieldN6 (enc2 c d a n6) = n6 := by
  apply BitVec.eq_of_getLsbD_eq; intro i hi; simp [fieldN6, enc2]; grind

@[simp] theorem fieldC_enc1 : fieldC (enc1 c d e n8) = c := by
  apply BitVec.eq_of_getLsbD_eq; intro i hi; simp [fieldC, enc1]; grind
@[simp] theorem fieldD_enc1 : fieldD (enc1 c d e n8) = d := by
  apply BitVec.eq_of_getLsbD_eq; intro i hi; simp [fieldD, enc1]; grind
@[simp] theorem fieldE_enc1 : fieldE (enc1 c d e n8) = e := by
  apply BitVec.eq_of_getLsbD_eq; intro i hi; simp [fieldE, enc1]; grind
@[simp] theorem fieldN8_enc1 : fieldN8 (enc1 c d e n8) = n8 := by
  apply BitVec.eq_of_getLsbD_eq; intro i hi; simp [fieldN8, enc1]; grind

/-- A word is its five fields of the 3-Reg format. -/
theorem enc3_fields : enc3 (fieldC w) (fieldD w) (fieldA w) (fieldF w) (fieldB w) = w := by
  apply BitVec.eq_of_getLsbD_eq; intro i hi
  simp only [enc3, fieldC, fieldD, fieldA, fieldF, fieldB, BitVec.getLsbD_append, BitVec.getLsbD_extractLsb']; grind

/-- A word is its four fields of the 2-Reg format. -/
theorem enc2_fields : enc2 (fieldC w) (fieldD w) (fieldA w) (fieldN6 w) = w := by
  apply BitVec.eq_of_getLsbD_eq; intro i hi
  simp only [enc2, fieldC, fieldD, fieldA, fieldN6, BitVec.getLsbD_append, BitVec.getLsbD_extractLsb']; grind

/-- A word is its four fields of the 1-Reg format. -/
theorem enc1_fields : enc1 (fieldC w) (fieldD w) (fieldE w) (fieldN8 w) = w := by
  apply BitVec.eq_of_getLsbD_eq; intro i hi
  simp only [enc1, fieldC, fieldD, fieldE, fieldN8, BitVec.getLsbD_append, BitVec.getLsbD_extractLsb']; grind

end

end Sys2Proof
end

