-- ==== Sys2Proof/Laws/State.lean ====
section
/-! SUPPORT. One lemma for each field and each update of the state. -/

namespace Sys2Proof.Machine

variable (s : State) (r : RegNum) (addr v : Word) (p : Port) (e : IoEvent)

@[simp] theorem State.setReg_pc : (s.setReg r v).pc = s.pc := rfl
@[simp] theorem State.setReg_mem : (s.setReg r v).mem = s.mem := rfl
@[simp] theorem State.setReg_imem : (s.setReg r v).imem = s.imem := rfl
@[simp] theorem State.setReg_inputs : (s.setReg r v).inputs = s.inputs := rfl
@[simp] theorem State.setReg_outputs : (s.setReg r v).outputs = s.outputs := rfl
@[simp] theorem State.setReg_portChanges : (s.setReg r v).portChanges = s.portChanges := rfl
@[simp] theorem State.setReg_trace : (s.setReg r v).trace = s.trace := rfl
@[simp] theorem State.setReg_params : (s.setReg r v).params = s.params := rfl

@[simp] theorem State.setPc_regs : (s.setPc v).regs = s.regs := rfl
@[simp] theorem State.setPc_pc : (s.setPc v).pc = v := rfl
@[simp] theorem State.setPc_mem : (s.setPc v).mem = s.mem := rfl
@[simp] theorem State.setPc_imem : (s.setPc v).imem = s.imem := rfl
@[simp] theorem State.setPc_inputs : (s.setPc v).inputs = s.inputs := rfl
@[simp] theorem State.setPc_outputs : (s.setPc v).outputs = s.outputs := rfl
@[simp] theorem State.setPc_portChanges : (s.setPc v).portChanges = s.portChanges := rfl
@[simp] theorem State.setPc_trace : (s.setPc v).trace = s.trace := rfl
@[simp] theorem State.setPc_params : (s.setPc v).params = s.params := rfl

@[simp] theorem State.advance_regs : s.advance.regs = s.regs := rfl
@[simp] theorem State.advance_pc : s.advance.pc = s.pc + 1#16 := rfl
@[simp] theorem State.advance_mem : s.advance.mem = s.mem := rfl
@[simp] theorem State.advance_imem : s.advance.imem = s.imem := rfl
@[simp] theorem State.advance_inputs : s.advance.inputs = s.inputs := rfl
@[simp] theorem State.advance_outputs : s.advance.outputs = s.outputs := rfl
@[simp] theorem State.advance_portChanges : s.advance.portChanges = s.portChanges := rfl
@[simp] theorem State.advance_trace : s.advance.trace = s.trace := rfl
@[simp] theorem State.advance_params : s.advance.params = s.params := rfl

@[simp] theorem State.writeData_regs : (s.writeData addr v).regs = s.regs := rfl
@[simp] theorem State.writeData_pc : (s.writeData addr v).pc = s.pc := rfl
@[simp] theorem State.writeData_mem : (s.writeData addr v).mem = s.mem.write addr.toNat v := rfl
@[simp] theorem State.writeData_imem : (s.writeData addr v).imem = s.imem := rfl
@[simp] theorem State.writeData_inputs : (s.writeData addr v).inputs = s.inputs := rfl
@[simp] theorem State.writeData_outputs : (s.writeData addr v).outputs = s.outputs := rfl
@[simp] theorem State.writeData_portChanges : (s.writeData addr v).portChanges = s.portChanges := rfl
@[simp] theorem State.writeData_trace : (s.writeData addr v).trace = s.trace := rfl
@[simp] theorem State.writeData_params : (s.writeData addr v).params = s.params := rfl

@[simp] theorem State.record_regs : (s.record e).regs = s.regs := rfl
@[simp] theorem State.record_pc : (s.record e).pc = s.pc := rfl
@[simp] theorem State.record_mem : (s.record e).mem = s.mem := rfl
@[simp] theorem State.record_imem : (s.record e).imem = s.imem := rfl
@[simp] theorem State.record_inputs : (s.record e).inputs = s.inputs := rfl
@[simp] theorem State.record_outputs : (s.record e).outputs = s.outputs := rfl
@[simp] theorem State.record_portChanges : (s.record e).portChanges = s.portChanges := rfl
@[simp] theorem State.record_trace : (s.record e).trace = s.trace ++ [e] := rfl
@[simp] theorem State.record_params : (s.record e).params = s.params := rfl

@[simp] theorem State.outWrite_regs : (s.outWrite p v).regs = s.regs := rfl
@[simp] theorem State.outWrite_pc : (s.outWrite p v).pc = s.pc := rfl
@[simp] theorem State.outWrite_mem : (s.outWrite p v).mem = s.mem := rfl
@[simp] theorem State.outWrite_imem : (s.outWrite p v).imem = s.imem := rfl
@[simp] theorem State.outWrite_inputs : (s.outWrite p v).inputs = s.inputs := rfl
@[simp] theorem State.outWrite_outputs : (s.outWrite p v).outputs = s.outputs.write p.toNat v := rfl
@[simp] theorem State.outWrite_portChanges : (s.outWrite p v).portChanges = s.portChanges := rfl
@[simp] theorem State.outWrite_trace : (s.outWrite p v).trace = s.trace := rfl
@[simp] theorem State.outWrite_params : (s.outWrite p v).params = s.params := rfl

@[simp] theorem State.presentInput_regs : (s.presentInput p v).regs = s.regs := rfl
@[simp] theorem State.presentInput_pc : (s.presentInput p v).pc = s.pc := rfl
@[simp] theorem State.presentInput_mem : (s.presentInput p v).mem = s.mem := rfl
@[simp] theorem State.presentInput_imem : (s.presentInput p v).imem = s.imem := rfl
@[simp] theorem State.presentInput_inputs :
    (s.presentInput p v).inputs = if s.ioShared p then s.inputs else s.inputs.write p.toNat v := rfl
@[simp] theorem State.presentInput_outputs :
    (s.presentInput p v).outputs = if s.ioShared p then s.outputs.write p.toNat v else s.outputs := rfl
@[simp] theorem State.presentInput_portChanges : (s.presentInput p v).portChanges = s.portChanges := rfl
@[simp] theorem State.presentInput_trace : (s.presentInput p v).trace = s.trace := rfl
@[simp] theorem State.presentInput_params : (s.presentInput p v).params = s.params := rfl

@[simp] theorem State.placeCode_regs : (s.placeCode addr v).regs = s.regs := by
  unfold State.placeCode; split <;> rfl
@[simp] theorem State.placeCode_pc : (s.placeCode addr v).pc = s.pc := by
  unfold State.placeCode; split <;> rfl
@[simp] theorem State.placeCode_inputs : (s.placeCode addr v).inputs = s.inputs := by
  unfold State.placeCode; split <;> rfl
@[simp] theorem State.placeCode_outputs : (s.placeCode addr v).outputs = s.outputs := by
  unfold State.placeCode; split <;> rfl
@[simp] theorem State.placeCode_portChanges : (s.placeCode addr v).portChanges = s.portChanges := by
  unfold State.placeCode; split <;> rfl
@[simp] theorem State.placeCode_trace : (s.placeCode addr v).trace = s.trace := by
  unfold State.placeCode; split <;> rfl
@[simp] theorem State.placeCode_params : (s.placeCode addr v).params = s.params := by
  unfold State.placeCode; split <;> rfl

@[simp] theorem State.outside_regs : s.outside.regs = s.regs := rfl
@[simp] theorem State.outside_pc : s.outside.pc = s.pc := rfl
@[simp] theorem State.outside_mem : s.outside.mem = s.mem := rfl
@[simp] theorem State.outside_imem : s.outside.imem = s.imem := rfl
@[simp] theorem State.outside_inputs : s.outside.inputs = s.inputs := rfl
@[simp] theorem State.outside_outputs :
    s.outside.outputs = s.outputs.update s.outsideMove s.params.ioShared := rfl
@[simp] theorem State.outside_portChanges : s.outside.portChanges = s.portChanges.afterStep := rfl
@[simp] theorem State.outside_trace : s.outside.trace = s.trace := rfl
@[simp] theorem State.outside_params : s.outside.params = s.params := rfl

end Sys2Proof.Machine
end

