-- ==== Sys2Proof/Laws/Ops.lean ====
section
/-! SUPPORT. What each shared operation does to what can be read of the state, said once. -/

namespace Sys2Proof.Machine

/-! ### Registers -/

/-- A register after a write: the value written in the register written, the old value in every other. -/
theorem State.reg_setReg (s : State) (d r : RegNum) (v : Word) :
    (s.setReg d v).reg r = if d = r then v else s.reg r := by
  simp [State.reg, State.setReg, Vector.getElem_set, BitVec.toNat_inj]

@[simp] theorem State.reg_setReg_self (s : State) (d : RegNum) (v : Word) : (s.setReg d v).reg d = v := by
  simp [State.reg_setReg]

theorem State.reg_setReg_of_ne (s : State) {d r : RegNum} (v : Word) (h : r ≠ d) :
    (s.setReg d v).reg r = s.reg r := by simp [State.reg_setReg, Ne.symm h]

/-- The registers are read through the field `regs` alone. -/
theorem State.reg_congr {s t : State} (h : t.regs = s.regs) (r : RegNum) : t.reg r = s.reg r := by
  simp [State.reg, h]

@[simp] theorem State.reg_advance (s : State) (r : RegNum) : s.advance.reg r = s.reg r := rfl
@[simp] theorem State.reg_setPc (s : State) (v : Word) (r : RegNum) : (s.setPc v).reg r = s.reg r := rfl
@[simp] theorem State.reg_writeData (s : State) (addr v : Word) (r : RegNum) :
    (s.writeData addr v).reg r = s.reg r := rfl
@[simp] theorem State.reg_record (s : State) (e : IoEvent) (r : RegNum) : (s.record e).reg r = s.reg r := rfl
@[simp] theorem State.reg_outWrite (s : State) (p : Port) (v : Word) (r : RegNum) :
    (s.outWrite p v).reg r = s.reg r := rfl
@[simp] theorem State.reg_presentInput (s : State) (p : Port) (v : Word) (r : RegNum) :
    (s.presentInput p v).reg r = s.reg r := rfl
@[simp] theorem State.reg_placeCode (s : State) (addr v : Word) (r : RegNum) :
    (s.placeCode addr v).reg r = s.reg r := State.reg_congr (s.placeCode_regs addr v) r

/-! ### Memory -/

/-- The words of MEM after a data write. -/
theorem State.dataWord_writeData (s : State) (addr b v : Word) :
    (s.writeData addr v).dataWord b = if addr = b then some v else s.dataWord b := by
  simp [State.dataWord, Cells.read_write, BitVec.toNat_inj]

/-- Under unified a fetch sees a data write at once. -/
theorem State.codeWord_writeData_unified (s : State) (addr b v : Word)
    (h : s.params.memoryOrganisation = .unified) :
    (s.writeData addr v).codeWord b = if addr = b then some v else s.codeWord b := by
  simp [State.codeWord, h, Cells.read_write, BitVec.toNat_inj]

/-- Under harvard a fetch never sees a data write. -/
theorem State.codeWord_writeData_harvard (s : State) (addr b v : Word)
    (h : s.params.memoryOrganisation = .harvard) : (s.writeData addr v).codeWord b = s.codeWord b := by
  simp [State.codeWord, h]

/-- A word placed for the fetch is what the fetch reads. -/
theorem State.codeWord_placeCode (s : State) (addr b v : Word) :
    (s.placeCode addr v).codeWord b = if addr = b then some v else s.codeWord b := by
  unfold State.placeCode State.codeWord
  cases h : s.params.memoryOrganisation <;> simp [h, Cells.read_write, BitVec.toNat_inj]

/-! ### Ports -/

/-- The output ports after an OUT. -/
theorem State.outPort_outWrite (s : State) (p q : Port) (v : Word) :
    (s.outWrite p v).outPort q = if p = q then some v else s.outPort q := by
  simp [State.outPort, Cells.read_write, BitVec.toNat_inj]

/-- Where a port is one register, INPUT holds what OUTPUT holds. -/
theorem State.heldInput_of_shared {s : State} {p : Port} (h : s.ioShared p = true) : s.heldInput p = s.outPort p := by
  simp [State.heldInput, h]

theorem State.heldInput_of_distinct {s : State} {p : Port} (h : s.ioShared p = false) :
    s.heldInput p = s.inputs.read p.toNat := by simp [State.heldInput, h]

/-- The input ports after an OUT. -/
theorem State.heldInput_outWrite (s : State) (p q : Port) (v : Word) :
    (s.outWrite p v).heldInput q = if s.ioShared q ∧ p = q then some v else s.heldInput q := by
  have hs : (s.outWrite p v).ioShared q = s.ioShared q := rfl
  cases h : s.ioShared q
  · simp [State.heldInput, hs, h]
  · simp [State.heldInput, hs, h, State.outPort_outWrite]

/-- A port that is one register reads what it holds. -/
theorem State.inRead_of_shared {s : State} {p : Port} (h : s.ioShared p = true) :
    s.inRead p = (s.outPort p).getD (Config.inputOracle s.params.inputOracle.device [] p) := by
  simp [State.inRead, State.readShared, h]

/-- Another port reads the listed answer, else what it holds, else any value. -/
theorem State.inRead_of_distinct {s : State} {p : Port} (h : s.ioShared p = false) :
    s.inRead p = ((s.listedAnswer p).or (s.heldInput p)).getD
      (Config.inputOracle s.params.inputOracle.device s.trace p) := by
  simp [State.inRead, State.readDistinct, h]

/-- One more event counts one more IN exactly when it is an IN from the port. -/
theorem inputCount_append (p : Port) (l : List IoEvent) (e : IoEvent) :
    inputCount p (l ++ [e]) = inputCount p l + inputCount p [e] := by
  induction l with
  | nil => simp [inputCount]
  | cons x rest ih => cases x <;> simp [inputCount, ih]; omega

/-- The input ports after the outside world fixes one. -/
theorem State.heldInput_presentInput (s : State) (p q : Port) (v : Word) :
    (s.presentInput p v).heldInput q = if p = q then some v else s.heldInput q := by
  have hs : (s.presentInput p v).ioShared q = s.ioShared q := rfl
  by_cases hpq : p = q
  · subst hpq; cases h : s.ioShared p <;> simp [State.heldInput, State.outPort, hs, h]
  · cases h : s.ioShared p <;> cases h' : s.ioShared q <;>
      simp [State.heldInput, State.outPort, hs, h, h', hpq, Cells.read_write, BitVec.toNat_inj]

/-- The output ports after the outside world fixes an input port. -/
theorem State.outPort_presentInput (s : State) (p q : Port) (v : Word) :
    (s.presentInput p v).outPort q = if s.ioShared p ∧ p = q then some v else s.outPort q := by
  by_cases h : s.ioShared p <;> simp [State.outPort, h, Cells.read_write, BitVec.toNat_inj]

/-! ### The outside world between two instructions -/

@[simp] theorem State.reg_outside (s : State) (r : RegNum) : s.outside.reg r = s.reg r := rfl
@[simp] theorem State.dataWord_outside (s : State) (addr : Word) : s.outside.dataWord addr = s.dataWord addr := rfl
@[simp] theorem State.codeWord_outside (s : State) (addr : Word) : s.outside.codeWord addr = s.codeWord addr := rfl
@[simp] theorem State.codeCell_outside (s : State) (addr : Word) : s.outside.codeCell addr = s.codeCell addr := rfl
@[simp] theorem State.ioShared_outside (s : State) (p : Port) : s.outside.ioShared p = s.ioShared p := rfl
@[simp] theorem State.effectiveAddress_outside (s : State) (a : RegNum) (n6 : Imm6) :
    s.outside.effectiveAddress a n6 = s.effectiveAddress a n6 := rfl

/-- The outside world moves no port that has a register of its own. -/
theorem State.outsideMove_of_distinct {s : State} {p : Port} (h : s.ioShared p = false) : s.outsideMove p = none := by
  simp [State.outsideMove, h]

/-- A port after the outside world's move. -/
theorem State.outPort_outside (s : State) (p : Port) : s.outside.outPort p = (s.outsideMove p).or (s.outPort p) := by
  show (s.outputs.update s.outsideMove s.params.ioShared).read p.toNat = _
  rw [Cells.read_update]
  by_cases h : p ∈ s.params.ioShared
  · rw [if_pos h]; rfl
  · have : s.outsideMove p = none := State.outsideMove_of_distinct (by simpa [State.ioShared] using h)
    rw [if_neg h, this]; rfl

/-- An input port after the outside world's move. -/
theorem State.heldInput_outside (s : State) (p : Port) :
    s.outside.heldInput p = (s.outsideMove p).or (s.heldInput p) := by
  cases h : s.ioShared p
  · rw [State.outsideMove_of_distinct h]; simp [State.heldInput, h]
  · rw [State.heldInput_of_shared h, State.heldInput_of_shared (s := s.outside) (by simpa using h),
      State.outPort_outside]

/-- With no change to come the outside world leaves the state as it is. -/
theorem State.outside_of_quiet {s : State} (h : s.portChanges = .listed []) : s.outside = s := by
  have : s.outsideMove = fun _ => none := by funext p; simp [State.outsideMove, h]
  unfold State.outside
  rw [this, Cells.update_none, h]
  cases s; subst h; rfl

/-! ### The canonical form -/

theorem State.wf_iff (s : State) : s.wf = true ↔
    s.mem.wf memSize = true ∧ s.imem.wf memSize = true ∧ s.inputs.wf portCount = true ∧
      s.outputs.wf portCount = true := by
  simp [State.wf, Bool.and_eq_true, and_assoc]

theorem word_lt_memSize (a : Word) : a.toNat < memSize := a.isLt

theorem port_lt_portCount (p : Port) : p.toNat < portCount := p.isLt

/-- The memory after reset is canonical. -/
theorem State.reset_wf : State.reset.wf = true := by decide

@[simp] theorem State.wf_setReg (s : State) (r : RegNum) (v : Word) : (s.setReg r v).wf = s.wf := rfl
@[simp] theorem State.wf_setPc (s : State) (v : Word) : (s.setPc v).wf = s.wf := rfl
@[simp] theorem State.wf_advance (s : State) : s.advance.wf = s.wf := rfl
@[simp] theorem State.wf_record (s : State) (e : IoEvent) : (s.record e).wf = s.wf := rfl

/-- A data write keeps the canonical form. -/
theorem State.wf_writeData {s : State} (addr v : Word) (h : s.wf = true) : (s.writeData addr v).wf = true := by
  rw [State.wf_iff] at h ⊢
  exact ⟨Cells.wf_write v (word_lt_memSize addr) h.1, h.2⟩

/-- Placing code keeps the canonical form. -/
theorem State.wf_placeCode {s : State} (addr v : Word) (h : s.wf = true) : (s.placeCode addr v).wf = true := by
  unfold State.placeCode
  rw [State.wf_iff] at h
  split <;> rw [State.wf_iff]
  · exact ⟨Cells.wf_write v (word_lt_memSize addr) h.1, h.2⟩
  · exact ⟨h.1, Cells.wf_write v (word_lt_memSize addr) h.2.1, h.2.2⟩

/-- An OUT keeps the canonical form. -/
theorem State.wf_outWrite {s : State} (p : Port) (v : Word) (h : s.wf = true) : (s.outWrite p v).wf = true := by
  rw [State.wf_iff] at h ⊢
  exact ⟨h.1, h.2.1, h.2.2.1, Cells.wf_write v (port_lt_portCount p) h.2.2.2⟩

/-- The outside world's move keeps the canonical form. -/
theorem State.wf_outside {s : State} (h : s.wf = true) : s.outside.wf = true := by
  rw [State.wf_iff] at h ⊢
  exact ⟨h.1, h.2.1, h.2.2.1, Cells.wf_update _ _ h.2.2.2⟩

/-- Fixing an input port keeps the canonical form. -/
theorem State.wf_presentInput {s : State} (p : Port) (v : Word) (h : s.wf = true) :
    (s.presentInput p v).wf = true := by
  rw [State.wf_iff] at h ⊢
  refine ⟨h.1, h.2.1, ?_, ?_⟩
  · simp only [State.presentInput_inputs]
    split
    · exact h.2.2.1
    · exact Cells.wf_write v (port_lt_portCount p) h.2.2.1
  · simp only [State.presentInput_outputs]
    split
    · exact Cells.wf_write v (port_lt_portCount p) h.2.2.2
    · exact h.2.2.2

/-! ### How an instruction ends -/

/-- `finishReg` always answers a next state, and this one. -/
@[simp] theorem State.finishReg_eq (s : State) (d : RegNum) (v : Word) :
    s.finishReg d v = .next (s.setReg d v).advance := rfl

/-- A fetch that finds a word runs it; one that finds none stops. -/
theorem State.withFetched_of_some {s : State} {w : Word} (h : s.codeWord s.pc = some w) (body : Word → Result) :
    s.withFetched body = body w := by simp [State.withFetched, h]

theorem State.withFetched_of_none {s : State} (h : s.codeWord s.pc = none) (body : Word → Result) :
    s.withFetched body = raiseUnwritten (s.codeCell s.pc) := by simp [State.withFetched, h]

end Sys2Proof.Machine
end

