-- ==== Sys2Proof/Laws/PerInstr.lean ====
section
/-! SUPPORT. Per instruction: its word matches the mask and match of its row of spec/opcode_table.json. -/

namespace Sys2Proof.Laws.EncodesToRow

/-- The word of the instruction is accepted by the row of the opcode table that has its mnemonic. -/
def Statement (i : Instr) : Prop := ∃ r ∈ opcodeTable, r.mnemonic = i.mnemonic ∧ r.accepts (encode i) = true

theorem ones4 (c : BitVec 4) : c &&& 0xF#4 = c := by revert c; decide
theorem ones3 (f : BitVec 3) : f &&& 7#3 = f := by revert f; decide
theorem ones1 (e : BitVec 1) : e &&& 1#1 = e := by revert e; decide

/-- Bitwise AND acts field by field. -/
theorem enc3_and (c c' : BitVec 4) (d d' a a' f f' b b' : BitVec 3) :
    enc3 c d a f b &&& enc3 c' d' a' f' b' = enc3 (c &&& c') (d &&& d') (a &&& a') (f &&& f') (b &&& b') := by
  apply BitVec.eq_of_getLsbD_eq; intro i hi
  simp only [enc3, BitVec.getLsbD_and, BitVec.getLsbD_append]; grind

/-- Bitwise AND acts field by field. -/
theorem enc2_and (c c' : BitVec 4) (d d' a a' : BitVec 3) (n n' : BitVec 6) :
    enc2 c d a n &&& enc2 c' d' a' n' = enc2 (c &&& c') (d &&& d') (a &&& a') (n &&& n') := by
  apply BitVec.eq_of_getLsbD_eq; intro i hi
  simp only [enc2, BitVec.getLsbD_and, BitVec.getLsbD_append]; grind

/-- Bitwise AND acts field by field. -/
theorem enc1_and (c c' : BitVec 4) (d d' : BitVec 3) (e e' : BitVec 1) (n n' : BitVec 8) :
    enc1 c d e n &&& enc1 c' d' e' n' = enc1 (c &&& c') (d &&& d') (e &&& e') (n &&& n') := by
  apply BitVec.eq_of_getLsbD_eq; intro i hi
  simp only [enc1, BitVec.getLsbD_and, BitVec.getLsbD_append]; grind

/-- The mask of the 3-Reg rows keeps cccc and fff. -/
theorem enc3_mask (c : BitVec 4) (d a f b : BitVec 3) : enc3 c d a f b &&& 0xF038#16 = enc3 c 0#3 0#3 f 0#3 := by
  rw [show (0xF038#16) = enc3 0xF#4 0#3 0#3 7#3 0#3 from by decide, enc3_and]
  simp only [BitVec.and_zero, ones4, ones3]

/-- The mask of the NOT row keeps cccc, fff and bbb. -/
theorem enc3_mask_not (c : BitVec 4) (d a f b : BitVec 3) :
    enc3 c d a f b &&& 0xF03F#16 = enc3 c 0#3 0#3 f b := by
  rw [show (0xF03F#16) = enc3 0xF#4 0#3 0#3 7#3 7#3 from by decide, enc3_and]
  simp only [BitVec.and_zero, ones4, ones3]

/-- The mask of the 2-Reg rows keeps cccc. -/
theorem enc2_mask (c : BitVec 4) (d a : BitVec 3) (n : BitVec 6) : enc2 c d a n &&& 0xF000#16 = enc2 c 0#3 0#3 0#6 := by
  rw [show (0xF000#16) = enc2 0xF#4 0#3 0#3 0#6 from by decide, enc2_and]
  simp only [BitVec.and_zero, ones4]

/-- The mask of the 1-Reg rows keeps cccc and e. -/
theorem enc1_mask (c : BitVec 4) (d : BitVec 3) (e : BitVec 1) (n : BitVec 8) :
    enc1 c d e n &&& 0xF100#16 = enc1 c 0#3 e 0#8 := by
  rw [show (0xF100#16) = enc1 0xF#4 0#3 1#1 0#8 from by decide, enc1_and]
  simp only [BitVec.and_zero, ones4, ones1]

/-- The mask of the row of the unused operation codes keeps bit 15. -/
theorem unused_mask (rest : BitVec 15) : (1#1 ++ rest : Word) &&& 0x8000#16 = 0x8000#16 := by
  apply BitVec.eq_of_getLsbD_eq; intro i hi
  rw [BitVec.getLsbD_and, BitVec.getLsbD_append]
  by_cases h : i < 15
  · simp [h]; interval_cases i <;> simp
  · have : i = 15 := by omega
    subst this; simp

theorem and (d a b : RegNum) : Statement (.and d a b) :=
  ⟨⟨"AND", 0xF038#16, 0x0000#16⟩, by decide, rfl, by
    simp only [TableRow.accepts, encode, enc3_mask]; decide⟩

theorem or (d a b : RegNum) : Statement (.or d a b) :=
  ⟨⟨"OR", 0xF038#16, 0x0008#16⟩, by decide, rfl, by
    simp only [TableRow.accepts, encode, enc3_mask]; decide⟩

theorem xor (d a b : RegNum) : Statement (.xor d a b) :=
  ⟨⟨"XOR", 0xF038#16, 0x0010#16⟩, by decide, rfl, by
    simp only [TableRow.accepts, encode, enc3_mask]; decide⟩

theorem not (d a : RegNum) : Statement (.not d a) :=
  ⟨⟨"NOT", 0xF03F#16, 0x0018#16⟩, by decide, rfl, by
    simp only [TableRow.accepts, encode, enc3_mask_not]; decide⟩

theorem add (d a b : RegNum) : Statement (.add d a b) :=
  ⟨⟨"ADD", 0xF038#16, 0x0020#16⟩, by decide, rfl, by
    simp only [TableRow.accepts, encode, enc3_mask]; decide⟩

theorem sub (d a b : RegNum) : Statement (.sub d a b) :=
  ⟨⟨"SUB", 0xF038#16, 0x0028#16⟩, by decide, rfl, by
    simp only [TableRow.accepts, encode, enc3_mask]; decide⟩

theorem sha (d a b : RegNum) : Statement (.sha d a b) :=
  ⟨⟨"SHA", 0xF038#16, 0x0030#16⟩, by decide, rfl, by
    simp only [TableRow.accepts, encode, enc3_mask]; decide⟩

theorem shl (d a b : RegNum) : Statement (.shl d a b) :=
  ⟨⟨"SHL", 0xF038#16, 0x0038#16⟩, by decide, rfl, by
    simp only [TableRow.accepts, encode, enc3_mask]; decide⟩

theorem cmplt (d a b : RegNum) : Statement (.cmplt d a b) :=
  ⟨⟨"CMPLT", 0xF038#16, 0x1000#16⟩, by decide, rfl, by
    simp only [TableRow.accepts, encode, enc3_mask]; decide⟩

theorem cmple (d a b : RegNum) : Statement (.cmple d a b) :=
  ⟨⟨"CMPLE", 0xF038#16, 0x1008#16⟩, by decide, rfl, by
    simp only [TableRow.accepts, encode, enc3_mask]; decide⟩

theorem cmpeq (d a b : RegNum) : Statement (.cmpeq d a b) :=
  ⟨⟨"CMPEQ", 0xF038#16, 0x1018#16⟩, by decide, rfl, by
    simp only [TableRow.accepts, encode, enc3_mask]; decide⟩

theorem cmpltu (d a b : RegNum) : Statement (.cmpltu d a b) :=
  ⟨⟨"CMPLTU", 0xF038#16, 0x1020#16⟩, by decide, rfl, by
    simp only [TableRow.accepts, encode, enc3_mask]; decide⟩

theorem cmpleu (d a b : RegNum) : Statement (.cmpleu d a b) :=
  ⟨⟨"CMPLEU", 0xF038#16, 0x1028#16⟩, by decide, rfl, by
    simp only [TableRow.accepts, encode, enc3_mask]; decide⟩

theorem addi (d a : RegNum) (n6 : Imm6) : Statement (.addi d a n6) :=
  ⟨⟨"ADDI", 0xF000#16, 0x2000#16⟩, by decide, rfl, by
    simp only [TableRow.accepts, encode, enc2_mask]; decide⟩

theorem ld (d a : RegNum) (n6 : Imm6) : Statement (.ld d a n6) :=
  ⟨⟨"LD", 0xF000#16, 0x3000#16⟩, by decide, rfl, by
    simp only [TableRow.accepts, encode, enc2_mask]; decide⟩

theorem st (b a : RegNum) (n6 : Imm6) : Statement (.st b a n6) :=
  ⟨⟨"ST", 0xF000#16, 0x4000#16⟩, by decide, rfl, by
    simp only [TableRow.accepts, encode, enc2_mask]; decide⟩

theorem movi (d : RegNum) (n8 : Imm8) : Statement (.movi d n8) :=
  ⟨⟨"MOVI", 0xF100#16, 0x5000#16⟩, by decide, rfl, by
    simp only [TableRow.accepts, encode, enc1_mask]; decide⟩

theorem movhi (d : RegNum) (n8 : Imm8) : Statement (.movhi d n8) :=
  ⟨⟨"MOVHI", 0xF100#16, 0x5100#16⟩, by decide, rfl, by
    simp only [TableRow.accepts, encode, enc1_mask]; decide⟩

theorem bz (b : RegNum) (n8 : Imm8) : Statement (.bz b n8) :=
  ⟨⟨"BZ", 0xF100#16, 0x6000#16⟩, by decide, rfl, by
    simp only [TableRow.accepts, encode, enc1_mask]; decide⟩

theorem bnz (b : RegNum) (n8 : Imm8) : Statement (.bnz b n8) :=
  ⟨⟨"BNZ", 0xF100#16, 0x6100#16⟩, by decide, rfl, by
    simp only [TableRow.accepts, encode, enc1_mask]; decide⟩

theorem inPort (d : RegNum) (n8 : Imm8) : Statement (.inPort d n8) :=
  ⟨⟨"IN", 0xF100#16, 0x7000#16⟩, by decide, rfl, by
    simp only [TableRow.accepts, encode, enc1_mask]; decide⟩

theorem outPort (b : RegNum) (n8 : Imm8) : Statement (.outPort b n8) :=
  ⟨⟨"OUT", 0xF100#16, 0x7100#16⟩, by decide, rfl, by
    simp only [TableRow.accepts, encode, enc1_mask]; decide⟩

theorem unusedOpcode (rest : BitVec 15) : Statement (.unusedOpcode rest) :=
  ⟨⟨"unused_1xxx", 0x8000#16, 0x8000#16⟩, by decide, rfl, by
    simp only [TableRow.accepts, encode, unused_mask]; decide⟩

theorem unusedCompare2 (d a b : RegNum) : Statement (.unusedCompare2 d a b) :=
  ⟨⟨"unused_0001_fff_010", 0xF038#16, 0x1010#16⟩, by decide, rfl, by
    simp only [TableRow.accepts, encode, enc3_mask]; decide⟩

theorem unusedCompare6 (d a b : RegNum) : Statement (.unusedCompare6 d a b) :=
  ⟨⟨"unused_0001_fff_110", 0xF038#16, 0x1030#16⟩, by decide, rfl, by
    simp only [TableRow.accepts, encode, enc3_mask]; decide⟩

theorem unusedCompare7 (d a b : RegNum) : Statement (.unusedCompare7 d a b) :=
  ⟨⟨"unused_0001_fff_111", 0xF038#16, 0x1038#16⟩, by decide, rfl, by
    simp only [TableRow.accepts, encode, enc3_mask]; decide⟩

theorem notBbb (d a b : RegNum) : Statement (.notBbb d a b) :=
  ⟨⟨"NOT_with_bbb____000", 0xF038#16, 0x0018#16⟩, by decide, rfl, by
    simp only [TableRow.accepts, encode, enc3_mask]; decide⟩

end Sys2Proof.Laws.EncodesToRow

namespace Sys2Proof

/-- The parts of `EncodedAs`, the decoding taken from the round trip. -/
theorem encodedAs_of_round_trip {i : Instr} {mask bits w : Word} (row : encode i &&& mask = bits)
    (word : encode i = w) (round : decode (encode i) = i) : EncodedAs i mask bits w :=
  ⟨row, word, word ▸ round⟩

end Sys2Proof
end

