-- ==== Sys2Proof/Laws/Step.lean ====
section
/-! SUPPORT. What a step can do, said once: the forms of the next state, and when a step stops. -/

namespace Sys2Proof.Machine

/-- A step from a state whose next instruction word is written. -/
theorem step_of_codeWord {s : State} {w : Word} (h : s.codeWord s.pc = some w) :
    step s = exec (decode w) s.outside :=
  State.withFetched_of_some (s := s.outside) (by simpa using h) _

/-- A step from a state whose next instruction word is not written. -/
theorem step_of_unwritten {s : State} (h : s.codeWord s.pc = none) :
    step s = .fault (.unwrittenRead (s.codeCell s.pc)) :=
  State.withFetched_of_none (s := s.outside) (by simpa using h) _

/-- A step that answers a next state has fetched a word and run it. -/
theorem step_next_fetched {s t : State} (h : step s = .next t) :
    ∃ w, s.codeWord s.pc = some w ∧ exec (decode w) s.outside = .next t := by
  cases hc : s.codeWord s.pc with
  | some w => exact ⟨w, rfl, by rw [← step_of_codeWord hc]; exact h⟩
  | none => rw [step_of_unwritten hc] at h; cases h

/-- The two ways a branch ends. -/
theorem branchIf_next {s t : State} {taken : Bool} {n8 : Imm8} (h : s.branchIf taken n8 = .next t) :
    (taken = true ∧ t = s.setPc (s.branchTarget n8)) ∨ (taken = false ∧ t = s.advance) := by
  cases taken with
  | true => left; exact ⟨rfl, by simpa [State.branchIf, eq_comm] using h⟩
  | false => right; exact ⟨rfl, by simpa [State.branchIf, eq_comm] using h⟩

/-- The forms of a next state of `exec`: a register written; a word stored; a branch taken; a branch not
taken; an IN; an OUT. -/
inductive Effect (i : Instr) (s : State) : State → Prop where
  /-- One register is written, with no access to a port. -/
  | writesReg (d : RegNum) (v : Word) (hi : i.regWritten = some d) (hio : ∀ d' p, i ≠ .inPort d' p) :
      Effect i s (s.setReg d v).advance
  /-- ST stores one word. -/
  | stores (b a : RegNum) (n6 : Imm6) (hi : i = .st b a n6) :
      Effect i s (s.writeData (s.effectiveAddress a n6) (s.reg b)).advance
  /-- A branch is taken. -/
  | jumps (target : Word) (ht : BranchTaken i s target) : Effect i s (s.setPc target)
  /-- A branch is not taken. -/
  | falls (hi : (∃ b n8, i = .bz b n8 ∧ s.reg b ≠ 0#16) ∨ (∃ b n8, i = .bnz b n8 ∧ s.reg b = 0#16)) :
      Effect i s s.advance
  /-- IN reads a port. -/
  | reads (d : RegNum) (p : Port) (hi : i = .inPort d p) :
      Effect i s ((s.record (.input p (s.inRead p))).setReg d (s.inRead p)).advance
  /-- OUT writes a port. -/
  | writesPort (b : RegNum) (p : Port) (hi : i = .outPort b p) :
      Effect i s ((s.outWrite p (s.reg b)).record (.output p (s.reg b))).advance

/-- Everything `exec` can do when it answers a next state. -/
theorem exec_next_effect {i : Instr} {s t : State} (h : exec i s = .next t) : Effect i s t := by
  cases i with
  | and d a b | or d a b | xor d a b | add d a b | sub d a b | sha d a b | shl d a b | not d a
  | cmplt d a b | cmple d a b | cmpeq d a b | cmpltu d a b | cmpleu d a b | addi d a n | movi d n | movhi d n =>
    cases h; exact .writesReg d _ rfl (by intros; simp)
  | ld d a n6 =>
    simp only [exec, execLd] at h
    split at h
    · cases h; exact .writesReg d _ rfl (by intros; simp)
    · cases h
  | st b a n6 => cases h; exact .stores b a n6 rfl
  | bz b n8 =>
    rcases branchIf_next h with ⟨hz, rfl⟩ | ⟨hz, rfl⟩
    · exact .jumps _ (.inl ⟨b, n8, rfl, by simpa [isZeroWord] using hz, rfl⟩)
    · exact .falls (.inl ⟨b, n8, rfl, by simpa [isZeroWord] using hz⟩)
  | bnz b n8 =>
    rcases branchIf_next h with ⟨hz, rfl⟩ | ⟨hz, rfl⟩
    · exact .jumps _ (.inr ⟨b, n8, rfl, by simpa [isZeroWord] using hz, rfl⟩)
    · exact .falls (.inr ⟨b, n8, rfl, by simpa [isZeroWord] using hz⟩)
  | inPort d p => cases h; exact .reads d p rfl
  | outPort b p => cases h; exact .writesPort b p rfl
  | unusedOpcode _ | unusedCompare2 _ _ _ | unusedCompare6 _ _ _ | unusedCompare7 _ _ _ => cases h
  | notBbb d a b =>
    simp only [exec, execNotBbb] at h
    split at h
    · cases h
    · cases h; exact .writesReg d _ rfl (by intros; simp)

/-- `exec` stops only on an illegal word and on LD from a word that nothing has written. -/
theorem exec_fault_cases {i : Instr} {s : State} {f : Fault} (h : exec i s = .fault f) :
    (i.illegalUnder s.params.notBbbPolicy = true ∧ f = .illegalInstruction (encode i)) ∨
    (∃ d a n6, i = .ld d a n6 ∧ s.dataWord (s.effectiveAddress a n6) = none ∧
      f = .unwrittenRead (.mem (s.effectiveAddress a n6))) := by
  cases i with
  | and _ _ _ | or _ _ _ | xor _ _ _ | add _ _ _ | sub _ _ _ | sha _ _ _ | shl _ _ _ | not _ _
  | cmplt _ _ _ | cmple _ _ _ | cmpeq _ _ _ | cmpltu _ _ _ | cmpleu _ _ _ | addi _ _ _ | movi _ _ | movhi _ _
  | st _ _ _ | inPort _ _ | outPort _ _ => cases h
  | ld d a n6 =>
    simp only [exec, execLd] at h
    split at h
    · cases h
    · cases h; exact .inr ⟨d, a, n6, rfl, by assumption, rfl⟩
  | bz _ _ => simp only [exec, execBz, State.branchIf] at h; split at h <;> cases h
  | bnz _ _ => simp only [exec, execBnz, State.branchIf] at h; split at h <;> cases h
  | unusedOpcode _ | unusedCompare2 _ _ _ | unusedCompare6 _ _ _ | unusedCompare7 _ _ _ =>
    cases h; exact .inl ⟨rfl, rfl⟩
  | notBbb d a b =>
    simp only [exec, execNotBbb] at h
    split at h
    · rename_i hp; cases h; exact .inl ⟨by simp [Instr.illegalUnder, hp], rfl⟩
    · cases h

/-- `exec` refuses no instruction. -/
theorem exec_not_refused (i : Instr) (s : State) (r : Refusal) : exec i s ≠ .refused r := by
  intro h
  cases i <;> simp only [exec, execLd, execBz, execBnz, State.branchIf, execNotBbb] at h <;>
    (try split at h) <;> cases h

/-! ### Runs -/

theorem core_run_zero (s : State) : core.run 0 s = .next s := rfl

/-- The first step of a run. -/
theorem core_run_succ {s t : State} (h : step s = .next t) (n : Nat) : core.run (n + 1) s = core.run n t := by
  have h' : core.step s = .next t := h
  simp only [Host.Core.run]; rw [h']

end Sys2Proof.Machine
end

