-- ==== Sys2Proof/Tests/Slice0.lean ====
section
/-! SUPPORT. Tests on fixed values, each from a worked example or vector of spec/95_test_vectors.md or from an
encoding of spec/30_encoding.md (named in the comment), and a witness for the hypotheses of each obligation
that has any. -/

namespace Sys2Proof.Tests

open Sys2Proof.Machine

/-! ### Helpers -/

/-- A machine with the given words in memory, pc, registers, held input ports and parameters. -/
def machine (words : List (Word × Word)) (pc : Word) (regs : List (RegNum × Word))
    (inputs : List (Port × Word) := []) (params : Params := Params.default)
    (changes : PortChanges := .listed []) : State :=
  Launch.initial { image := words, dataImage := [], resetPc := pc, regs := regs, inputs := inputs,
                   portChanges := changes, params := params }

/-- One instruction word at 0x0100, the convention of 95_test_vectors.md. -/
def one (w : Word) (regs : List (RegNum × Word)) (more : List (Word × Word) := [])
    (inputs : List (Port × Word) := []) : State := machine ((0x0100#16, w) :: more) 0x0100#16 regs inputs

/-- The parameters with another memory organisation. -/
def harvardParams : Params := { Params.default with memoryOrganisation := .harvard }

/-- The parameters with the other policy for NOT. -/
def ignoreParams : Params := { Params.default with notBbbPolicy := .ignore }

/-- The parameters with port 0x10 one register. -/
def sharedParams : Params := { Params.default with ioShared := [0x10#8] }

/-- The parameters with an END_PC. -/
def endParams (e : Word) : Params := { Params.default with endPc := some e }

/-- A field of the next state, if there is one. -/
def after {α : Type} (o : Result) (f : State → α) : Option α :=
  match o with
  | .next t => some (f t)
  | .fault _ => none
  | .refused _ => none

/-- The fault, if there is one. -/
def faultOf (o : Result) : Option Fault :=
  match o with
  | .next _ => none
  | .fault f => some f
  | .refused _ => none

/-- The next state, or the given one. -/
def nextOr (s : State) : State := (after (step s) id).getD s

/-! ### Well-formedness and decoding -/

/-- R72: the words of `notBbb` have a nonzero bbb. -/
theorem test_notBbb_zero_ill_formed : (Instr.notBbb 1#3 2#3 0#3).wellFormed = false := by decide
theorem test_notBbb_well_formed : (Instr.notBbb 1#3 2#3 3#3).wellFormed = true := by decide

/-! One word for each row of the opcode table, its fields written out from 30_encoding.md R62 to R64. -/

theorem test_decode_and : decode 0b0000_111_110_000_111#16 = .and 7#3 6#3 7#3 := by decide
theorem test_decode_or : decode 0b0000_111_110_001_111#16 = .or 7#3 6#3 7#3 := by decide
theorem test_decode_xor : decode 0b0000_010_010_010_001#16 = .xor 2#3 2#3 1#3 := by decide
theorem test_decode_not : decode 0b0000_111_110_011_000#16 = .not 7#3 6#3 := by decide
theorem test_decode_add : decode 0b0000_101_011_100_100#16 = .add 5#3 3#3 4#3 := by decide
theorem test_decode_sub : decode 0b0000_101_011_101_100#16 = .sub 5#3 3#3 4#3 := by decide
theorem test_decode_sha : decode 0b0000_100_011_110_101#16 = .sha 4#3 3#3 5#3 := by decide
theorem test_decode_shl : decode 0b0000_100_011_111_101#16 = .shl 4#3 3#3 5#3 := by decide
theorem test_decode_cmplt : decode 0b0001_101_100_000_011#16 = .cmplt 5#3 4#3 3#3 := by decide
theorem test_decode_cmple : decode 0b0001_101_011_001_100#16 = .cmple 5#3 3#3 4#3 := by decide
theorem test_decode_cmpeq : decode 0b0001_101_010_011_100#16 = .cmpeq 5#3 2#3 4#3 := by decide
theorem test_decode_cmpltu : decode 0b0001_101_100_100_011#16 = .cmpltu 5#3 4#3 3#3 := by decide
theorem test_decode_cmpleu : decode 0b0001_101_011_101_100#16 = .cmpleu 5#3 3#3 4#3 := by decide
theorem test_decode_addi : decode 0b0010_101_011_111110#16 = .addi 5#3 3#3 0b111110#6 := by decide
theorem test_decode_ld : decode 0b0011_111_010_111011#16 = .ld 7#3 2#3 0b111011#6 := by decide
theorem test_decode_st : decode 0b0100_111_010_111011#16 = .st 7#3 2#3 0b111011#6 := by decide
theorem test_decode_movi : decode 0b0101_101_0_11111111#16 = .movi 5#3 0xFF#8 := by decide
theorem test_decode_movhi : decode 0b0101_100_1_00110100#16 = .movhi 4#3 0x34#8 := by decide
theorem test_decode_bz : decode 0b0110_101_0_11110101#16 = .bz 5#3 0xF5#8 := by decide
theorem test_decode_bnz : decode 0b0110_101_1_11110101#16 = .bnz 5#3 0xF5#8 := by decide
theorem test_decode_inPort : decode 0b0111_011_0_10111010#16 = .inPort 3#3 0xBA#8 := by decide
theorem test_decode_outPort : decode 0b0111_010_1_10111010#16 = .outPort 2#3 0xBA#8 := by decide
theorem test_decode_unusedOpcode : decode 0b1000_110_111_010_110#16 = .unusedOpcode 0b000_110_111_010_110#15 := by decide
theorem test_decode_unusedCompare2 : decode 0b0001_011_001_010_010#16 = .unusedCompare2 3#3 1#3 2#3 := by decide
theorem test_decode_unusedCompare6 : decode 0b0001_011_001_110_010#16 = .unusedCompare6 3#3 1#3 2#3 := by decide
theorem test_decode_unusedCompare7 : decode 0b0001_011_001_111_010#16 = .unusedCompare7 3#3 1#3 2#3 := by decide
theorem test_decode_notBbb : decode 0b0000_011_001_011_111#16 = .notBbb 3#3 1#3 7#3 := by decide

/-- R80: the worked encodings of the annex. -/
theorem test_encode_annex :
    encode (.add 5#3 3#3 4#3) = 0x0AE4#16 ∧ encode (.addi 5#3 3#3 0b111110#6) = 0x2AFE#16 ∧
    encode (.st 7#3 2#3 0b111011#6) = 0x4EBB#16 ∧ encode (.bnz 5#3 0xF5#8) = 0x6BF5#16 ∧
    encode (.outPort 2#3 0xBA#8) = 0x75BA#16 := by decide

/-- The host's numbering of a word's bits is the word's own (R7, R60). -/
theorem test_decodeTableWord : decodeTableWord 16 0x0AE4 = some (.add 5#3 3#3 4#3) ∧
    decodeTableWord 17 0x0AE4 = none := by decide

/-! ### One step of each instruction: the annex examples S1 to S35 and the vectors of section 2 -/

/-- 95_test_vectors.md S4. -/
theorem test_and : after (step (one 0x0F87#16 [(6#3, 0xF505#16), (7#3, 0xAAA3#16)])) (·.reg 7#3) = some 0xA001#16 := by decide
/-- 95_test_vectors.md S22. -/
theorem test_or : after (step (one 0x0F8F#16 [(6#3, 0xF505#16), (7#3, 0xAAA3#16)])) (·.reg 7#3) = some 0xFFA7#16 := by decide
/-- 95_test_vectors.md S33. -/
theorem test_xor : after (step (one 0x0491#16 [(1#3, 0xF505#16), (2#3, 0xAAA3#16)])) (·.reg 2#3) = some 0x5FA6#16 := by decide
/-- 95_test_vectors.md S21. -/
theorem test_not : after (step (one 0x0F98#16 [(6#3, 0xF505#16)])) (·.reg 7#3) = some 0x0AFA#16 := by decide
/-- 95_test_vectors.md S1. -/
theorem test_add_natural_overflow : after (step (one 0x0AE4#16 [(3#3, 0xFFF9#16), (4#3, 0x0008#16)])) (·.reg 5#3) = some 0x0001#16 := by decide
/-- 95_test_vectors.md S2. -/
theorem test_add_integer_overflow : after (step (one 0x0A24#16 [(0#3, 0x0001#16), (4#3, 0x7FFF#16)])) (·.reg 5#3) = some 0x8000#16 := by decide
/-- 95_test_vectors.md S31. -/
theorem test_sub : after (step (one 0x0AEC#16 [(3#3, 0xFFF9#16), (4#3, 0x0008#16)])) (·.reg 5#3) = some 0xFFF1#16 := by decide
/-- 95_test_vectors.md S32. -/
theorem test_sub_borrow : after (step (one 0x0A2C#16 [(0#3, 0x0001#16), (4#3, 0x7FFF#16)])) (·.reg 5#3) = some 0x8002#16 := by decide
/-- 95_test_vectors.md S25. -/
theorem test_sha_right_floor : after (step (one 0x08F5#16 [(3#3, 0xFFF9#16), (5#3, 0xFFFF#16)])) (·.reg 4#3) = some 0xFFFC#16 := by decide
/-- 95_test_vectors.md 2.2. -/
theorem test_sha_right_16 : after (step (one 0x0672#16 [(1#3, 0x8001#16), (2#3, 0x0010#16)])) (·.reg 3#3) = some 0xFFFF#16 := by decide
/-- 95_test_vectors.md S27. -/
theorem test_shl_right : after (step (one 0x08FD#16 [(3#3, 0xFFF9#16), (5#3, 0xFFFF#16)])) (·.reg 4#3) = some 0x7FFC#16 := by decide
/-- 95_test_vectors.md 2.2. -/
theorem test_shl_left_15_high_bits_ignored : after (step (one 0x067A#16 [(1#3, 0x8001#16), (2#3, 0xFFEF#16)])) (·.reg 3#3) = some 0x8000#16 := by decide
/-- 95_test_vectors.md 2.4. -/
theorem test_cmplt_corner : after (step (one 0x1642#16 [(1#3, 0x8000#16), (2#3, 0x7FFF#16)])) (·.reg 3#3) = some 0x0001#16 := by decide
/-- 95_test_vectors.md S13. -/
theorem test_cmplt : after (step (one 0x1B03#16 [(4#3, 0x0008#16), (3#3, 0xFFF9#16)])) (·.reg 5#3) = some 0x0000#16 := by decide
/-- 95_test_vectors.md S9. -/
theorem test_cmple : after (step (one 0x1ACC#16 [(3#3, 0xFFF9#16), (4#3, 0x0008#16)])) (·.reg 5#3) = some 0x0001#16 := by decide
/-- 95_test_vectors.md 2.4. -/
theorem test_cmple_equal : after (step (one 0x164A#16 [(1#3, 0x8000#16), (2#3, 0x8000#16)])) (·.reg 3#3) = some 0x0001#16 := by decide
/-- 95_test_vectors.md S7. -/
theorem test_cmpeq_not : after (step (one 0x1A9C#16 [(2#3, 0xFFF9#16), (4#3, 0x0008#16), (5#3, 0x3A00#16)])) (·.reg 5#3) = some 0x0000#16 := by decide
/-- 95_test_vectors.md S8. -/
theorem test_cmpeq : after (step (one 0x1A1C#16 [(0#3, 0xFFFF#16), (4#3, 0xFFFF#16)])) (·.reg 5#3) = some 0x0001#16 := by decide
/-- 95_test_vectors.md S15. -/
theorem test_cmpltu : after (step (one 0x1B23#16 [(4#3, 0x0008#16), (3#3, 0xFFF9#16)])) (·.reg 5#3) = some 0x0001#16 := by decide
/-- 95_test_vectors.md 2.4. -/
theorem test_cmpltu_corner : after (step (one 0x1662#16 [(1#3, 0x7FFF#16), (2#3, 0x8000#16)])) (·.reg 3#3) = some 0x0001#16 := by decide
/-- 95_test_vectors.md S11. -/
theorem test_cmpleu : after (step (one 0x1AEC#16 [(3#3, 0xFFF9#16), (4#3, 0x0008#16), (5#3, 0xFFFF#16)])) (·.reg 5#3) = some 0x0000#16 := by decide
/-- 95_test_vectors.md 2.4. -/
theorem test_cmpleu_equal : after (step (one 0x166A#16 [(1#3, 0x0000#16), (2#3, 0x0000#16)])) (·.reg 3#3) = some 0x0001#16 := by decide
/-- 95_test_vectors.md S3. -/
theorem test_addi : after (step (one 0x2AFE#16 [(3#3, 0xFFF9#16)])) (·.reg 5#3) = some 0xFFF7#16 := by decide
/-- 95_test_vectors.md 2.3. -/
theorem test_addi_smallest : after (step (one 0x2660#16 [(1#3, 0x0010#16)])) (·.reg 3#3) = some 0xFFF0#16 := by decide
/-- 95_test_vectors.md S34. -/
theorem test_movi : after (step (one 0x5AFF#16 [])) (·.reg 5#3) = some 0xFFFF#16 := by decide
/-- 95_test_vectors.md 2.7. -/
theorem test_movi_smallest : after (step (one 0x5680#16 [])) (·.reg 3#3) = some 0xFF80#16 := by decide
/-- 95_test_vectors.md S35. -/
theorem test_movhi : after (step (one 0x5734#16 [(3#3, 0xFFAB#16)])) (·.reg 3#3) = some 0x34AB#16 := by decide
/-- 95_test_vectors.md 2.7. -/
theorem test_movhi_clears : after (step (one 0x5700#16 [(3#3, 0xBEEF#16)])) (·.reg 3#3) = some 0x00EF#16 := by decide

/-- 95_test_vectors.md S20: the address wraps. -/
theorem test_ld_wraps :
    after (step (one 0x3EB0#16 [(2#3, 0x000A#16)] [(0xFFFA#16, 0xFFFD#16)])) (·.reg 7#3) = some 0xFFFD#16 := by decide
/-- 95_test_vectors.md 2.5: the base is also the destination. -/
theorem test_ld_base_is_destination :
    after (step (one 0x3240#16 [(1#3, 0x2000#16)] [(0x2000#16, 0x2001#16)])) (·.reg 1#3) = some 0x2001#16 := by decide
/-- 95_test_vectors.md S29. -/
theorem test_st : after (step (one 0x4EBB#16 [(2#3, 0x3F02#16), (7#3, 0x0A34#16)] [(0x3EFD#16, 0x3F00#16)]))
    (·.dataWord 0x3EFD#16) = some (some 0x0A34#16) := by decide
/-- 95_test_vectors.md 2.5: a store over itself completes. -/
theorem test_st_over_itself : after (step (one 0x4440#16 [(1#3, 0x0100#16), (2#3, 0x1234#16)]))
    (fun t => (t.dataWord 0x0100#16, t.pc)) = some (some 0x1234#16, 0x0101#16) := by decide
/-- 95_test_vectors.md S6. -/
theorem test_bz_taken :
    after (step (machine [(0x0FFF#16, 0x6AF5#16)] 0x0FFF#16 [(5#3, 0x0000#16)])) (·.pc) = some 0x0FF4#16 := by decide
/-- 95_test_vectors.md 2.6: only 0000 is zero, and the pc wraps. -/
theorem test_bz_not_taken_wraps :
    after (step (machine [(0xFFFF#16, 0x6400#16)] 0xFFFF#16 [(2#3, 0x0005#16)])) (·.pc) = some 0x0000#16 := by decide
/-- 95_test_vectors.md 2.6: any value that is not zero, and the target wraps. -/
theorem test_bnz_taken_wraps :
    after (step (machine [(0x0010#16, 0x6580#16)] 0x0010#16 [(2#3, 0x8000#16)])) (·.pc) = some 0xFF90#16 := by decide
/-- 95_test_vectors.md 2.6. -/
theorem test_bnz_not_taken : after (step (one 0x6505#16 [(2#3, 0x0000#16)])) (·.pc) = some 0x0101#16 := by decide
/-- 95_test_vectors.md S17. -/
theorem test_in : after (step (one 0x76BA#16 [(3#3, 0xAF09#16)] [] [(0xBA#8, 0x8000#16)]))
    (fun t => (t.reg 3#3, t.trace)) = some (0x8000#16, [.input 0xBA#8 0x8000#16]) := by decide
/-- 95_test_vectors.md S24. -/
theorem test_out : after (step (one 0x7103#16 [(0#3, 0xFFFF#16)]))
    (fun t => (t.outPort 0x03#8, t.trace)) = some (some 0xFFFF#16, [.output 0x03#8 0xFFFF#16]) := by decide

/-! ### Words that no instruction uses, and unwritten words (95_test_vectors.md 2.4, 2.9, P7) -/

theorem test_unused_opcode_stops : faultOf (step (one 0xA000#16 [])) = some (.illegalInstruction 0xA000#16) := by decide
theorem test_unused_compare2_stops : faultOf (step (one 0x1652#16 [])) = some (.illegalInstruction 0x1652#16) := by decide
theorem test_unused_compare6_stops : faultOf (step (one 0x1672#16 [])) = some (.illegalInstruction 0x1672#16) := by decide
theorem test_unused_compare7_stops : faultOf (step (one 0x167A#16 [])) = some (.illegalInstruction 0x167A#16) := by decide
theorem test_not_bbb_fault : faultOf (step (one 0x065F#16 [])) = some (.illegalInstruction 0x065F#16) := by decide
theorem test_not_bbb_ignore :
    after (step (machine [(0x0100#16, 0x065F#16)] 0x0100#16 [(1#3, 0x00FF#16)] [] ignoreParams)) (·.reg 3#3) =
      some 0xFF00#16 := by decide
theorem test_ld_unwritten_stops :
    faultOf (step (one 0x3640#16 [(1#3, 0x3000#16)])) = some (.unwrittenRead (.mem 0x3000#16)) := by decide
theorem test_fetch_unwritten_stops : faultOf (step State.reset) = some (.unwrittenRead (.mem 0x0000#16)) := by decide

/-! ### Witnesses: a state and operands that meet the hypotheses of each obligation that has any -/

theorem witness_rows : (⟨"AND", 0xF038#16, 0x0000#16⟩ : TableRow) ∈ arithLogicRows ++ compareRows ++ immediateRows ∧
    TableRow.accepts ⟨"AND", 0xF038#16, 0x0000#16⟩ 0x0000#16 = true := by decide
/-- StepRunsDecodedInstruction, LegalInstructionsComplete, PcAdvancesUnlessBranchTaken (not a branch). -/
theorem witness_fetch : (one 0x0AE4#16 []).codeWord (one 0x0AE4#16 []).pc = some 0x0AE4#16 ∧
    (decode 0x0AE4#16).illegalUnder (one 0x0AE4#16 []).params.notBbbPolicy = false ∧
    decode 0x0AE4#16 = .add 5#3 3#3 4#3 ∧ (after (step (one 0x0AE4#16 [])) (·.pc)).isSome = true := by decide
/-- LegalInstructionsComplete, LD. -/
theorem witness_legal_ld : decode 0x3640#16 = .ld 3#3 1#3 0#6 ∧
    (one 0x3640#16 [(1#3, 0x0100#16)]).dataWord ((one 0x3640#16 [(1#3, 0x0100#16)]).effectiveAddress 1#3 0#6) =
      some 0x3640#16 := by decide
/-- FetchOfUnwrittenWordStops, both organisations. -/
theorem witness_unwritten_fetch : State.reset.codeWord State.reset.pc = none ∧
    (machine [] 0#16 [] [] harvardParams).codeWord 0#16 = none ∧
    faultOf (step (machine [] 0#16 [] [] harvardParams)) = some (.unwrittenRead (.imem 0#16)) := by decide
/-- ShiftArithmeticResult and ShiftLogicalResult: the counts at the ends of both clauses. -/
theorem witness_shift_counts :
    ((0x000F#16 : Word).extractLsb' 0 5).toInt = 15 ∧ ((0x0020#16 : Word).extractLsb' 0 5).toInt = 0 ∧
    ((0xFFFF#16 : Word).extractLsb' 0 5).toInt = -1 ∧ ((0x0010#16 : Word).extractLsb' 0 5).toInt = -16 := by decide
/-- LoadResult. -/
theorem witness_load : (one 0x3640#16 [(1#3, 0x1000#16)] [(0x1000#16, 0xCAFE#16)]).dataWord
    ((one 0x3640#16 [(1#3, 0x1000#16)] [(0x1000#16, 0xCAFE#16)]).effectiveAddress 1#3 0#6) = some 0xCAFE#16 := by decide
/-- LoadOfUnwrittenWordStops. -/
theorem witness_load_unwritten : (one 0x3640#16 [(1#3, 0x3000#16)]).dataWord
    ((one 0x3640#16 [(1#3, 0x3000#16)]).effectiveAddress 1#3 0#6) = none := by decide

/-- `ST 0(R1), R2` into the next word, which then holds `MOVI R3, 0x7f` (95_test_vectors.md P6). -/
def storer (params : Params) : State :=
  machine [(0x0013#16, 0x4440#16), (0x0014#16, 0x5600#16)] 0x0013#16 [(1#3, 0x0014#16), (2#3, 0x567F#16)] [] params

/-- StoreIntoNextInstructionIsFetched, OnlyStoreChangesMemory (a store). -/
theorem witness_store_next : (storer Params.default).params.memoryOrganisation = .unified ∧
    (storer Params.default).codeWord (storer Params.default).pc = some 0x4440#16 ∧ decode 0x4440#16 = .st 2#3 1#3 0#6 ∧
    (storer Params.default).effectiveAddress 1#3 0#6 = (storer Params.default).pc + 1#16 ∧
    (after (step (storer Params.default)) (·.pc)).isSome = true := by decide
/-- 95_test_vectors.md P6, unified: the stored instruction runs. -/
theorem test_store_into_code_unified :
    after (step (nextOr (storer Params.default))) (·.reg 3#3) = some 0x007F#16 := by decide
/-- 95_test_vectors.md P6, harvard (HarvardProgramNeverChanges): the program is as loaded. -/
theorem test_store_into_code_harvard : (storer harvardParams).params.memoryOrganisation = .harvard ∧
    after (step (nextOr (storer harvardParams))) (fun t => (t.reg 3#3, t.dataWord 0x0014#16)) =
      some (0x0000#16, some 0x567F#16) := by decide
/-- LoadAfterStoreReturnsValue. -/
theorem witness_load_after_store :
    (after (exec (.st 2#3 1#3 0#6) (storer Params.default)) (·.effectiveAddress 1#3 0#6)) =
      some ((storer Params.default).effectiveAddress 1#3 0#6) := by decide
/-- PcAdvancesUnlessBranchTaken, both branches taken. -/
theorem witness_branch_taken :
    BranchTaken (decode 0x6401#16) (one 0x6401#16 []) 0x0101#16 ∧
    BranchTaken (decode 0x6500#16) (one 0x6500#16 [(2#3, 0x0001#16)]) 0x0100#16 :=
  ⟨.inl ⟨2#3, 0x01#8, by decide⟩, .inr ⟨2#3, 0x00#8, by decide⟩⟩
/-- SelfBranchHangs, both branches; a hang of 95_test_vectors.md P7. -/
theorem witness_self_branch :
    (one 0x6000#16 []).codeWord 0x0100#16 = some 0x6000#16 ∧ decode 0x6000#16 = .bz 0#3 0x00#8 ∧
    (one 0x6000#16 []).reg 0#3 = 0#16 ∧ decode 0x6500#16 = .bnz 2#3 0x00#8 ∧
    (one 0x6500#16 [(2#3, 0x0001#16)]).reg 2#3 ≠ 0#16 ∧ step (one 0x6500#16 [(2#3, 0x0001#16)]) =
      .next (one 0x6500#16 [(2#3, 0x0001#16)]) := ⟨by decide, by decide, by decide, by decide, by decide, rfl⟩
/-- BranchPairIsUnconditional: `BZ R0, +3` and `BNZ R0, +2`. -/
theorem witness_branch_pair :
    (one 0x6003#16 [] [(0x0101#16, 0x6102#16)]).codeWord 0x0100#16 = some 0x6003#16 ∧
    (one 0x6003#16 [] [(0x0101#16, 0x6102#16)]).codeWord 0x0101#16 = some 0x6102#16 ∧
    decode 0x6003#16 = .bz 0#3 0x03#8 ∧ decode 0x6102#16 = .bnz 0#3 0x02#8 ∧
    (0x0100#16 + (0x03#8).signExtend 16 : Word) = 0x0103#16 ∧
    (0x0101#16 + (0x02#8).signExtend 16 : Word) = 0x0103#16 := by decide

/-- `OUT 0x10, R3` with port 0x10 held at 9999 (95_test_vectors.md 2.8). -/
def outputter (params : Params) : State :=
  machine [(0x0100#16, 0x7710#16), (0x0101#16, 0x7810#16)] 0x0100#16 [(3#3, 0x1234#16)] [(0x10#8, 0x9999#16)] params

/-- The same with port 0x10 one register, which a device changes before the second step. -/
def outsideChange : State :=
  machine [(0x0100#16, 0x7710#16), (0x0101#16, 0x7810#16)] 0x0100#16 [(3#3, 0x1234#16)] [] sharedParams
    (.listed [[], [(0x10#8, 0x5555#16)]])

/-- The same with port 0x10 one register that nothing has written. -/
def sharer : State :=
  machine [(0x0100#16, 0x7710#16), (0x0101#16, 0x7810#16)] 0x0100#16 [(3#3, 0x1234#16)] [] sharedParams

/-- InputAfterOutput, InputResult: a held port of either kind, a port nobody holds, and a shared register that
nothing has written. -/
theorem witness_held : (outputter Params.default).heldInput 0x10#8 = some 0x9999#16 ∧
    (outputter Params.default).ioShared 0x10#8 = false ∧
    (outputter sharedParams).heldInput 0x10#8 = some 0x9999#16 ∧ (outputter sharedParams).ioShared 0x10#8 = true ∧
    (one 0x7600#16 []).heldInput 0x00#8 = none ∧ (one 0x7600#16 []).listedAnswer 0x00#8 = none ∧
    sharer.outPort 0x10#8 = none ∧ sharer.ioShared 0x10#8 = true := by decide
/-- 95_test_vectors.md 2.8, IO_SHARED(0x10) false: the two spaces are distinct. -/
theorem test_out_in_distinct :
    after (step (nextOr (outputter Params.default))) (fun t => (t.reg 4#3, t.outPort 0x10#8)) =
      some (0x9999#16, some 0x1234#16) := by decide
/-- 95_test_vectors.md 2.8, IO_SHARED(0x10) true and no outside change: held at the start or not. -/
theorem test_out_in_shared : after (step (nextOr (outputter sharedParams))) (·.reg 4#3) = some 0x1234#16 ∧
    after (step (nextOr sharer)) (·.reg 4#3) = some 0x1234#16 := by decide
/-- 70_reset_and_hazards.md R166: a device changes the one register between two instructions, and IN and OUTPUT
show it (`outsideChange` before the second step; OutsideChangesOnlySharedPorts). -/
theorem test_outside_change :
    after (step (nextOr outsideChange)) (fun t => (t.reg 4#3, t.outPort 0x10#8)) =
      some (0x5555#16, some 0x5555#16) := by decide
/-- IN from a port nobody holds completes with the oracle's answer, whatever it is (20_memory.md R53). -/
theorem test_in_free :
    after (step (one 0x7600#16 [])) (·.reg 3#3) = some (Config.inputOracle 0 [] 0x00#8) := rfl

/-- P4 of 95_test_vectors.md at its first IN, with oracle B. -/
def polled : State :=
  machine [(0x1000#16, 0x7210#16)] 0x1000#16 [] [] { Params.default with
    inputOracle := { answers := [(0x10#8, 0x0000#16), (0x11#8, 0x8000#16), (0x10#8, 0x0000#16),
                                 (0x10#8, 0x8000#16)], device := 0 } }

/-- The same after two INs from the status port. -/
def polledTwice : State :=
  { polled with trace := [.input 0x10#8 0x0000#16, .input 0x10#8 0x0000#16] }

/-- 95_test_vectors.md P4, oracle B: port 0x10 answers 0000, 0000, 8000 in turn, whatever port 0x11 answers. -/
theorem test_oracle_in_turn : after (step polled) (·.reg 1#3) = some 0x0000#16 ∧
    after (step polledTwice) (·.reg 1#3) = some 0x8000#16 := by decide
/-- InputsAnsweredInTurn. -/
theorem witness_answers : polled.ioShared 0x10#8 = false ∧ (0x11#8 : Port) ≠ 0x10#8 ∧
    (answersFor 0x10#8 polled.params.inputOracle.answers)[inputCount 0x10#8 polled.trace]? = some 0x0000#16 ∧
    (answersFor 0x10#8 polled.params.inputOracle.answers)[inputCount 0x10#8 polled.trace + 1]? = some 0x0000#16 := by
  decide
/-- PresentedInputIsRead: a port of either kind. -/
theorem witness_presented :
    (after (exec (.inPort 3#3 0x10#8) (sharer.presentInput 0x10#8 0x4444#16)) (·.reg 3#3)) = some 0x4444#16 ∧
    (after (exec (.inPort 3#3 0x11#8) (sharer.presentInput 0x11#8 0x4444#16)) (·.reg 3#3)) = some 0x4444#16 := by
  decide
/-- NotWithBbbFollowsPolicy, both policies. -/
theorem witness_policies : Params.default.notBbbPolicy = .fault ∧ ignoreParams.notBbbPolicy = .ignore := by decide
/-- RegistersReadAndWritten: a register read, one written, one neither. -/
theorem witness_registers : (Instr.movhi 3#3 0x12#8).regsRead = [3#3] ∧ (Instr.movi 3#3 0x12#8).regWritten = some 3#3 ∧
    3#3 ∉ (Instr.movi 3#3 0x12#8).regsRead ∧ 4#3 ∉ (Instr.add 5#3 3#3 2#3).regsRead ∧
    (Instr.add 5#3 3#3 2#3).regWritten ≠ some 4#3 ∧
    (after (exec (.movi 3#3 0x12#8) State.reset) (·.pc)).isSome = true ∧
    (after (exec (.add 5#3 3#3 2#3) State.reset) (·.pc)).isSome = true := by decide
/-- StepKeepsCanonicalForm, with a step that writes memory. -/
theorem witness_canonical : (storer Params.default).wf = true ∧
    (after (step (storer Params.default)) (·.wf)) = some true := by decide
/-- A list out of order, and an address outside the space, are not canonical. -/
theorem test_not_canonical : Cells.wf [(5, 0#16), (3, 0#16)] memSize = false ∧
    Cells.wf [(65536, 0#16)] memSize = false ∧ Cells.wf [(256, 0#16)] portCount = false := by decide
/-- StepKeepsSharedPortsAgreeing, with an OUT to a shared port that holds a value. -/
theorem witness_shared : SharedPortsAgree (outputter sharedParams) ∧
    (outputter sharedParams).ioShared 0x10#8 = true ∧ decode 0x7710#16 = .outPort 3#3 0x10#8 ∧
    (after (step (outputter sharedParams)) (·.heldInput 0x10#8)) = some (some 0x1234#16) := by
  refine ⟨?_, by decide⟩
  intro p hp
  have hp' : p = 0x10#8 := by
    have h : (outputter sharedParams).params.ioShared = [0x10#8] := rfl
    simpa [State.ioShared, h] using hp
  subst hp'; decide
/-- The same, with a change of the outside world and no OUT to the port. -/
theorem witness_shared_changed : (nextOr outsideChange).ioShared 0x10#8 = true ∧
    decode 0x7810#16 = .inPort 4#3 0x10#8 ∧ (nextOr outsideChange).outsideMove 0x10#8 = some 0x5555#16 := by decide
/-- StepKeepsOutputsAtLastOut, with an OUT, and with a shared port that the launch lists. -/
theorem witness_outputs : OutputsFollowTrace (one 0x7103#16 []) ∧
    (after (step (one 0x7103#16 [])) (·.pc)).isSome = true ∧
    OutputsFollowTrace (outputter sharedParams) ∧ (outputter sharedParams).outPort 0x10#8 = some 0x9999#16 := by
  refine ⟨fun _ _ => rfl, by decide, ?_, by decide⟩
  intro p hp
  have hne : ¬ (0x10#8 : Port).toNat = p.toNat := by
    intro h
    have : p = 0x10#8 := (BitVec.eq_of_toNat_eq h).symm
    subst this; exact absurd hp (by decide)
  show Cells.read [(0x10, 0x9999#16)] p.toNat = none
  simpa [Cells.read] using hne

/-- 95_test_vectors.md 2.10 as a launch: RESET_PC = FFFE. -/
def wrapLaunch (endPc : Word) : Launch where
  image := [(0xFFFE#16, 0x5201#16), (0xFFFF#16, 0x2241#16), (0x0000#16, 0x2241#16)]
  dataImage := []
  resetPc := 0xFFFE#16
  regs := [(1#3, 0xBEEF#16)]
  inputs := []
  portChanges := .listed []
  params := endParams endPc

/-- A harvard launch with both parts, a listed input port and no register. -/
def harvardLaunch : Launch where
  image := [(0x0000#16, 0x3640#16)]
  dataImage := [(0x0000#16, 0x1111#16), (0x0040#16, 0x2222#16), (0x0000#16, 0x3333#16)]
  resetPc := 0x0000#16
  regs := []
  inputs := [(0xBA#8, 0x8000#16)]
  portChanges := .listed []
  params := harvardParams

/-- LaunchState: an image with a last word for an address, and an address outside it. -/
theorem witness_launch : (wrapLaunch 0x0001#16).image = [(0xFFFE#16, 0x5201#16)] ++ (0xFFFF#16, 0x2241#16) ::
      [(0x0000#16, 0x2241#16)] ∧ (∀ kv ∈ [((0x0000#16 : Word), (0x2241#16 : Word))], kv.1 ≠ 0xFFFF#16) ∧
    (∀ kv ∈ (wrapLaunch 0x0001#16).image, kv.1 ≠ 0x1234#16) ∧
    (wrapLaunch 0x0001#16).regs = [] ++ (1#3, 0xBEEF#16) :: [] :=
  ⟨rfl, by simp, by simp [wrapLaunch], rfl⟩
/-- LaunchState under harvard: both parts, an address outside each, an input port listed and one not. -/
theorem witness_launch_harvard : harvardLaunch.params.memoryOrganisation = .harvard ∧
    harvardLaunch.dataImage = [(0x0000#16, 0x1111#16), (0x0040#16, 0x2222#16)] ++ (0x0000#16, 0x3333#16) :: [] ∧
    (∀ kv ∈ harvardLaunch.image, kv.1 ≠ 0x0040#16) ∧ (∀ kv ∈ harvardLaunch.dataImage, kv.1 ≠ 0x0001#16) ∧
    harvardLaunch.inputs = [] ++ (0xBA#8, 0x8000#16) :: [] ∧ (∀ kv ∈ harvardLaunch.inputs, kv.1 ≠ 0xBB#8) :=
  ⟨rfl, rfl, by simp [harvardLaunch], by simp [harvardLaunch], rfl, by simp [harvardLaunch]⟩
/-- 70_reset_and_hazards.md R161: each part in its memory. -/
theorem test_launch_harvard : harvardLaunch.initial.codeWord 0x0000#16 = some 0x3640#16 ∧
    harvardLaunch.initial.dataWord 0x0000#16 = some 0x3333#16 ∧
    harvardLaunch.initial.dataWord 0x0001#16 = none ∧ harvardLaunch.initial.codeWord 0x0040#16 = none ∧
    harvardLaunch.initial.heldInput 0xBA#8 = some 0x8000#16 ∧ harvardLaunch.initial.heldInput 0xBB#8 = none := by
  decide
/-- The final state of a run that is over, if it is. -/
def finalOf (r : RunStatus) : Option State :=
  match r with
  | .over f => some f
  | .faulted _ _ => none
  | .refused _ => none
  | .going _ => none

/-- RunIsOverAtEndPc: 95_test_vectors.md 2.10 with END_PC = 0000, after two steps. -/
theorem witness_run_over :
    (finalOf (runToEnd 5 (wrapLaunch 0x0000#16).initial)).map (fun f => (f.reg 1#3, f.pc)) =
      some (0x0002#16, 0x0000#16) := by decide
/-- 95_test_vectors.md P7: END_PC at the start, over after 0 steps. -/
theorem test_over_at_once : (finalOf (runToEnd 3 (wrapLaunch 0xFFFE#16).initial)).map (·.pc) = some 0xFFFE#16 := by decide
/-- NoEndPcIsNeverOver: reset has no END_PC. -/
theorem witness_no_end : State.reset.params.endPc = none := by decide

end Sys2Proof.Tests
end

section
/-! PROOFS of the family 00_scope: what a step is, what every step keeps, and the state after reset. -/

namespace Sys2Proof.Machine

/-! ### What an instruction that completes keeps -/

/-- MEM, IMEM, INPUT and OUTPUT stay canonical: only ST and OUT write a space, each at an address inside it. -/
theorem Effect.wf {i : Instr} {s t : State} (h : Effect i s t) (hs : s.wf = true) : t.wf = true := by
  cases h with
  | writesReg _ _ _ _ | jumps _ _ | falls _ | reads _ _ _ => simpa using hs
  | stores b a n6 _ => simpa using State.wf_writeData (s.effectiveAddress a n6) (s.reg b) hs
  | writesPort b p _ => simpa using State.wf_outWrite p (s.reg b) hs

/-- The parameters are fixed during a run (00_scope.md R6). -/
theorem Effect.params_eq {i : Instr} {s t : State} (h : Effect i s t) : t.params = s.params := by
  cases h <;> simp

/-- IN and OUT each add one event to the I/O trace; the other instructions add none (70_reset_and_hazards.md R167). -/
theorem Effect.trace_eq_or_append {i : Instr} {s t : State} (h : Effect i s t) :
    t.trace = s.trace ∨ ∃ e, t.trace = s.trace ++ [e] := by
  cases h with
  | writesReg _ _ _ _ | stores _ _ _ _ | jumps _ _ | falls _ => left; simp
  | reads _ p _ => exact .inr ⟨.input p (s.inRead p), by simp⟩
  | writesPort b p _ => exact .inr ⟨.output p (s.reg b), by simp⟩

/-! ### What a step keeps -/

/-- A step that answers a next state has the effect of the instruction at the pc, after the outside world's move. -/
theorem step_next_effect {s t : State} (h : step s = .next t) :
    ∃ w, s.codeWord s.pc = some w ∧ Effect (decode w) s.outside t := by
  obtain ⟨w, hw, hexec⟩ := step_next_fetched h
  exact ⟨w, hw, exec_next_effect hexec⟩

theorem step_wf {s t : State} (hs : s.wf = true) (h : step s = .next t) : t.wf = true := by
  obtain ⟨_, _, heff⟩ := step_next_effect h
  exact heff.wf (State.wf_outside hs)

theorem step_params_eq {s t : State} (h : step s = .next t) : t.params = s.params := by
  obtain ⟨_, _, heff⟩ := step_next_effect h
  exact heff.params_eq.trans s.outside_params

theorem step_trace_eq_or_append {s t : State} (h : step s = .next t) :
    t.trace = s.trace ∨ ∃ e, t.trace = s.trace ++ [e] := by
  obtain ⟨_, _, heff⟩ := step_next_effect h
  simpa using heff.trace_eq_or_append

/-! ### The state after reset -/

@[simp] theorem State.reg_reset (r : RegNum) : State.reset.reg r = 0x0000#16 := by
  simp [State.reg, State.reset]

@[simp] theorem State.dataWord_reset (addr : Word) : State.reset.dataWord addr = none := rfl
@[simp] theorem State.codeWord_reset (addr : Word) : State.reset.codeWord addr = none := rfl
@[simp] theorem State.ioShared_reset (p : Port) : State.reset.ioShared p = false := rfl
@[simp] theorem State.outPort_reset (p : Port) : State.reset.outPort p = none := rfl

@[simp] theorem State.heldInput_reset (p : Port) : State.reset.heldInput p = none :=
  State.heldInput_of_distinct (State.ioShared_reset p)

/-! ### The obligations -/

/-- Settles O44: the outside world's move and the effect of the instruction each keep the canonical form and the
parameters, and only the effect can add an event. -/
theorem stepKeepsCanonicalForm : Obligations.StepKeepsCanonicalForm :=
  fun _ _ hs h => ⟨step_wf hs h, step_params_eq h, step_trace_eq_or_append h⟩

/-- Settles O7, from the fetch of a written word; with no change to come the outside world's move is the identity. -/
theorem stepRunsDecodedInstruction : Obligations.StepRunsDecodedInstruction := by
  intro s w hw
  have hstep : step s = exec (decode w) s.outside := step_of_codeWord hw
  refine ⟨hstep, fun hquiet => ?_⟩
  rwa [State.outside_of_quiet hquiet] at hstep

/-- Settles O48, field by field of `State.reset`. -/
theorem resetState : Obligations.ResetState :=
  ⟨fun addr => ⟨State.dataWord_reset addr, State.codeWord_reset addr⟩,
    fun p => ⟨State.heldInput_reset p, State.outPort_reset p, State.ioShared_reset p⟩,
    rfl, rfl, rfl, rfl, State.reg_reset, rfl, rfl⟩

end Sys2Proof.Machine
end

section
/-! PROOFS of the family 10_state: which part of the state each instruction and each step reads and writes, and how
the outside world and a launch leave the ports. -/

namespace Sys2Proof.Machine

/-! ### What can be read of the ports after an operation on another part of the state -/

section
variable (s : State) (p q : Port) (r : RegNum) (addr v : Word) (e : IoEvent)

@[simp] theorem State.outPort_setReg : (s.setReg r v).outPort p = s.outPort p := rfl
@[simp] theorem State.outPort_setPc : (s.setPc v).outPort p = s.outPort p := rfl
@[simp] theorem State.outPort_advance : s.advance.outPort p = s.outPort p := rfl
@[simp] theorem State.outPort_writeData : (s.writeData addr v).outPort p = s.outPort p := rfl
@[simp] theorem State.outPort_record : (s.record e).outPort p = s.outPort p := rfl

@[simp] theorem State.heldInput_advance : s.advance.heldInput p = s.heldInput p := rfl
@[simp] theorem State.heldInput_record : (s.record e).heldInput p = s.heldInput p := rfl

@[simp] theorem State.ioShared_presentInput : (s.presentInput q v).ioShared p = s.ioShared p := rfl
@[simp] theorem State.listedAnswer_presentInput : (s.presentInput q v).listedAnswer p = s.listedAnswer p := rfl

end

/-- Which ports are one register is a parameter. -/
theorem State.ioShared_congr {s t : State} (h : t.params = s.params) (p : Port) : t.ioShared p = s.ioShared p := by
  simp [State.ioShared, h]

/-! ### The next state of a taken branch, of IN and of OUT -/

/-- A branch that is taken always completes, at its target (45_branches.md R120). -/
theorem exec_of_branchTaken {i : Instr} {s : State} {target : Word} (h : BranchTaken i s target) :
    exec i s = .next (s.setPc target) := by
  rcases h with ⟨b, n8, rfl, hz, rfl⟩ | ⟨b, n8, rfl, hz, rfl⟩
  · simp [exec, execBz, State.branchIf, isZeroWord, hz, State.branchTarget, sext8]
  · simp [exec, execBnz, State.branchIf, isZeroWord, hz, State.branchTarget, sext8]

/-- The state after an OUT (47_input_output.md R131). -/
def State.afterOut (s : State) (b : RegNum) (p : Port) : State :=
  ((s.outWrite p (s.reg b)).record (.output p (s.reg b))).advance

theorem exec_outPort (b : RegNum) (p : Port) (s : State) : exec (.outPort b p) s = .next (s.afterOut b p) := rfl

/-- An IN always completes, with `InRead` of its port in the destination (47_input_output.md R130). -/
theorem exec_inPort_reads (d : RegNum) (p : Port) (s : State) :
    ∃ t, exec (.inPort d p) s = .next t ∧ t.reg d = s.inRead p :=
  ⟨_, rfl, by simp⟩

section
variable (s : State) (b : RegNum) (p q : Port)

@[simp] theorem State.outPort_afterOut_self : (s.afterOut b p).outPort p = some (s.reg b) := by
  simp [State.afterOut, State.outPort_outWrite]

@[simp] theorem State.ioShared_afterOut : (s.afterOut b p).ioShared q = s.ioShared q := rfl
@[simp] theorem State.params_afterOut : (s.afterOut b p).params = s.params := rfl

/-- An OUT is no IN, so it uses up no listed answer. -/
@[simp] theorem State.listedAnswer_afterOut : (s.afterOut b p).listedAnswer q = s.listedAnswer q := by
  simp [State.listedAnswer, State.afterOut, inputCount_append, inputCount]

/-- Where INPUT has a register of its own, no OUT changes it. -/
theorem State.heldInput_afterOut_of_distinct {s : State} {q : Port} (h : s.ioShared q = false) :
    (s.afterOut b p).heldInput q = s.heldInput q := by
  simp [State.afterOut, State.heldInput_outWrite, h]

end

/-! ### The parts of the state an instruction writes -/

/-- No instruction writes INPUT where it has a register of its own (10_state.md R31). -/
theorem Effect.inputs_eq {i : Instr} {s t : State} (h : Effect i s t) : t.inputs = s.inputs := by
  cases h <;> simp

/-- An output port changes only by an OUT to it (10_state.md R32). -/
theorem Effect.outPort_eq_of_no_out {i : Instr} {s t : State} {p : Port} (h : Effect i s t)
    (hno : ∀ b, i ≠ .outPort b p) : t.outPort p = s.outPort p := by
  cases h with
  | writesReg _ _ _ _ | stores _ _ _ _ | jumps _ _ | falls _ | reads _ _ _ => simp
  | writesPort b q hi =>
    have hqp : q ≠ p := fun heq => hno b (heq ▸ hi)
    simp [State.outPort_outWrite, hqp]

/-- An instruction leaves both memories as they are, or is the ST that writes one word (20_memory.md R43). -/
theorem Effect.memory_eq_or_store {i : Instr} {s t : State} (h : Effect i s t) :
    (t.mem = s.mem ∧ t.imem = s.imem) ∨
    ∃ b a n6, i = .st b a n6 ∧ t = (s.writeData (s.effectiveAddress a n6) (s.reg b)).advance := by
  cases h with
  | writesReg _ _ _ _ | jumps _ _ | falls _ | reads _ _ _ | writesPort _ _ _ => left; simp
  | stores b a n6 hi => exact .inr ⟨b, a, n6, hi, rfl⟩

/-- Only a taken branch leaves the pc elsewhere than one further (10_state.md R25). -/
theorem Effect.pc_eq_of_not_taken {i : Instr} {s t : State} (h : Effect i s t)
    (hnot : ∀ target, ¬ BranchTaken i s target) : t.pc = s.pc + 1#16 := by
  cases h with
  | jumps target ht => exact absurd ht (hnot target)
  | writesReg _ _ _ _ | stores _ _ _ _ | falls _ | reads _ _ _ | writesPort _ _ _ => simp

/-- A register that the table of 10_state.md R23 does not list as written is kept. -/
theorem Effect.reg_eq_of_not_written {i : Instr} {s t : State} {r : RegNum} (h : Effect i s t)
    (hr : i.regWritten ≠ some r) : t.reg r = s.reg r := by
  cases h with
  | writesReg d _ hi _ =>
    have hrd : r ≠ d := fun heq => hr (heq ▸ hi)
    simp [State.reg_setReg_of_ne _ _ hrd]
  | reads d p hi =>
    have hrd : r ≠ d := fun heq => hr (by simp [hi, Instr.regWritten, heq])
    simp [State.reg_setReg_of_ne _ _ hrd]
  | stores _ _ _ _ | jumps _ _ | falls _ | writesPort _ _ _ => simp

/-- A step that answers a next state has the effect of the instruction whose word stands at the pc. -/
theorem effect_of_step {s t : State} {w : Word} (hw : s.codeWord s.pc = some w) (h : step s = .next t) :
    Effect (decode w) s.outside t :=
  exec_next_effect (by rw [← step_of_codeWord hw, h])

/-! ### Registers an instruction does not read -/

theorem State.setReg_setReg_self (s : State) (r : RegNum) (v w : Word) : (s.setReg r v).setReg r w = s.setReg r w := by
  simp [State.setReg]

theorem State.setReg_comm (s : State) {r d : RegNum} (v w : Word) (h : d ≠ r) :
    (s.setReg r v).setReg d w = (s.setReg d w).setReg r v := by
  have hne : r.toNat ≠ d.toNat := fun heq => h (BitVec.eq_of_toNat_eq heq).symm
  simp [State.setReg, Vector.set_comm _ _ hne]

/-- Apply a function to the next state, where there is one. -/
def mapNext (f : State → State) : Result → Result
  | .next t => .next (f t)
  | .fault e => .fault e
  | .refused e => .refused e

@[simp] theorem mapNext_next (f : State → State) (t : State) : mapNext f (.next t) = .next (f t) := rfl

/-- What becomes of the content `v` of register `r` over an instruction that writes the register `written`, if any,
and does not read `r`: it is lost in the register written, and carried through in another. -/
def carryReg (written : Option RegNum) (r : RegNum) (v : Word) (t : State) : State :=
  if written = some r then t else t.setReg r v

/-- Where the destination gets the same value, the old content of a register is lost or carried through. -/
theorem State.finishReg_setReg (s : State) (r d : RegNum) (v w : Word) :
    (s.setReg r v).finishReg d w = mapNext (carryReg (some d) r v) (s.finishReg d w) := by
  by_cases h : d = r
  · subst h; simp [carryReg, State.setReg_setReg_self]
  · simp only [State.finishReg_eq, mapNext_next, State.setReg_comm s v w h, carryReg, Option.some.injEq, if_neg h]
    rfl

theorem State.branchIf_setReg (s : State) (r : RegNum) (v : Word) (taken : Bool) (n8 : Imm8) :
    (s.setReg r v).branchIf taken n8 = mapNext (carryReg none r v) (s.branchIf taken n8) := by
  cases taken <;> rfl

/-- Which registers an instruction reads (10_state.md R23): the content of another plays no part in what the
instruction does, and is lost or carried through. -/
theorem exec_setReg_of_not_read {i : Instr} {r : RegNum} (hr : r ∉ i.regsRead) (s : State) (v : Word) :
    exec i (s.setReg r v) = mapNext (carryReg i.regWritten r v) (exec i s) := by
  have hread : ∀ q ∈ i.regsRead, (s.setReg r v).reg q = s.reg q := fun q hq =>
    State.reg_setReg_of_ne s v fun heq => hr (heq ▸ hq)
  cases i with
  | and d a b | or d a b | xor d a b | add d a b | sub d a b | sha d a b | shl d a b
  | cmplt d a b | cmple d a b | cmpeq d a b | cmpltu d a b | cmpleu d a b =>
    obtain ⟨ha, hb⟩ : (s.setReg r v).reg a = s.reg a ∧ (s.setReg r v).reg b = s.reg b := by
      simpa [Instr.regsRead] using hread
    simp only [exec, execAnd, execOr, execXor, execAdd, execSub, execSha, execShl, execCmplt, execCmple, execCmpeq,
      execCmpltu, execCmpleu, ha, hb]
    exact s.finishReg_setReg r d v _
  | not d a | addi d a n6 | movhi d n8 =>
    simp only [Instr.regsRead, List.forall_mem_singleton] at hread
    simp only [exec, execNot, execAddi, execMovhi, hread]
    exact s.finishReg_setReg r d v _
  | movi d n8 => exact s.finishReg_setReg r d v _
  | inPort d p => exact (s.record (.input p (s.inRead p))).finishReg_setReg r d v _
  | ld d a n6 =>
    have hea : (s.setReg r v).effectiveAddress a n6 = s.effectiveAddress a n6 := by
      simp [State.effectiveAddress, hread a (by simp [Instr.regsRead])]
    have hword : (s.setReg r v).dataWord (s.effectiveAddress a n6) = s.dataWord (s.effectiveAddress a n6) := rfl
    simp only [exec, execLd, hea, hword]
    cases s.dataWord (s.effectiveAddress a n6) with
    | some x => exact s.finishReg_setReg r d v x
    | none => rfl
  | st b a n6 =>
    obtain ⟨ha, hb⟩ : (s.setReg r v).reg a = s.reg a ∧ (s.setReg r v).reg b = s.reg b := by
      simpa [Instr.regsRead] using hread
    simp only [exec, execSt, State.effectiveAddress, ha, hb]
    rfl
  | bz b n8 | bnz b n8 =>
    simp only [Instr.regsRead, List.forall_mem_singleton] at hread
    simp only [exec, execBz, execBnz, hread]
    exact s.branchIf_setReg r v _ n8
  | outPort b p =>
    simp only [Instr.regsRead, List.forall_mem_singleton] at hread
    simp only [exec, execOut, hread]
    rfl
  | unusedOpcode _ | unusedCompare2 _ _ _ | unusedCompare6 _ _ _ | unusedCompare7 _ _ _ => rfl
  | notBbb d a b =>
    simp only [Instr.regsRead, List.forall_mem_singleton] at hread
    simp only [exec, execNotBbb, hread, State.setReg_params]
    cases s.params.notBbbPolicy with
    | fault => rfl
    | ignore => exact s.finishReg_setReg r d v _

/-! ### The invariants of the ports -/

/-- A port that is one register has one home exactly when `inputs` does not list it: `heldInput` then reads
`outputs`. -/
theorem sharedPortsAgree_iff (s : State) :
    SharedPortsAgree s ↔ ∀ p, s.ioShared p = true → s.inputs.read p.toNat = none :=
  ⟨fun h p hp => (h p hp).1, fun h p hp => ⟨h p hp, State.heldInput_of_shared hp⟩⟩

theorem SharedPortsAgree.congr {s t : State} (h : SharedPortsAgree s) (hparams : t.params = s.params)
    (hinputs : t.inputs = s.inputs) : SharedPortsAgree t := by
  rw [sharedPortsAgree_iff] at h ⊢
  simpa only [State.ioShared_congr hparams, hinputs] using h

theorem OutputsFollowTrace.congr {s t : State} (h : OutputsFollowTrace s) (hparams : t.params = s.params)
    (houtputs : t.outputs = s.outputs) (htrace : t.trace = s.trace) : OutputsFollowTrace t := by
  intro p hp
  rw [State.ioShared_congr hparams] at hp
  simpa only [State.outPort, houtputs, htrace] using h p hp

/-- A presented value goes into `inputs` only where the port has a register of its own. -/
theorem SharedPortsAgree.presentInput {s : State} (h : SharedPortsAgree s) (p : Port) (v : Word) :
    SharedPortsAgree (s.presentInput p v) := by
  rw [sharedPortsAgree_iff] at h ⊢
  intro q hq
  rw [State.ioShared_presentInput] at hq
  rw [State.presentInput_inputs]
  split
  next => exact h q hq
  next hp =>
    have hpq : p ≠ q := fun heq => hp (heq ▸ hq)
    rw [Cells.read_write_of_ne _ _ (mt BitVec.eq_of_toNat_eq hpq), h q hq]

/-- A presented value goes into `outputs` only where the port is one register. -/
theorem OutputsFollowTrace.presentInput {s : State} (h : OutputsFollowTrace s) (p : Port) (v : Word) :
    OutputsFollowTrace (s.presentInput p v) := by
  intro q hq
  rw [State.ioShared_presentInput] at hq
  have hnot : ¬ (s.ioShared p = true ∧ p = q) := by rintro ⟨hp, rfl⟩; simp [hp] at hq
  rw [State.outPort_presentInput, if_neg hnot, h q hq, State.presentInput_trace]

/-- The three invariants together. -/
structure MeetsInvariants (s : State) : Prop where
  wf : s.wf = true
  shared : SharedPortsAgree s
  outputs : OutputsFollowTrace s

theorem MeetsInvariants.placeCode {s : State} (h : MeetsInvariants s) (addr v : Word) :
    MeetsInvariants (s.placeCode addr v) where
  wf := State.wf_placeCode addr v h.wf
  shared := h.shared.congr (by simp) (by simp)
  outputs := h.outputs.congr (by simp) (by simp) (by simp)

theorem MeetsInvariants.writeData {s : State} (h : MeetsInvariants s) (addr v : Word) :
    MeetsInvariants (s.writeData addr v) where
  wf := State.wf_writeData addr v h.wf
  shared := h.shared.congr rfl rfl
  outputs := h.outputs.congr rfl rfl rfl

theorem MeetsInvariants.setReg {s : State} (h : MeetsInvariants s) (r : RegNum) (v : Word) :
    MeetsInvariants (s.setReg r v) where
  wf := h.wf
  shared := h.shared.congr rfl rfl
  outputs := h.outputs.congr rfl rfl rfl

theorem MeetsInvariants.presentInput {s : State} (h : MeetsInvariants s) (p : Port) (v : Word) :
    MeetsInvariants (s.presentInput p v) where
  wf := State.wf_presentInput p v h.wf
  shared := h.shared.presentInput p v
  outputs := h.outputs.presentInput p v

/-- Before anything is loaded no space holds a value and the trace is empty. -/
theorem Launch.empty_meetsInvariants (l : Launch) : MeetsInvariants l.empty where
  wf := State.reset_wf
  shared := (sharedPortsAgree_iff _).2 fun _ _ => rfl
  outputs := fun _ _ => rfl

/-- Each of the four loads of a launch keeps the invariants, whatever it loads (70_reset_and_hazards.md R161). -/
theorem Launch.initial_meetsInvariants (l : Launch) : MeetsInvariants l.initial := by
  have hcode : MeetsInvariants (l.empty.loadCode l.image) :=
    List.foldlRecOn _ _ l.empty_meetsInvariants fun _ h kv _ => h.placeCode kv.1 kv.2
  have hdata : MeetsInvariants ((l.empty.loadCode l.image).loadData l.dataImage) :=
    List.foldlRecOn _ _ hcode fun _ h kv _ => h.writeData kv.1 kv.2
  have hregs : MeetsInvariants (((l.empty.loadCode l.image).loadData l.dataImage).loadRegs l.regs) :=
    List.foldlRecOn _ _ hdata fun _ h kv _ => h.setReg kv.1 kv.2
  exact List.foldlRecOn _ _ hregs fun _ h kv _ => h.presentInput kv.1 kv.2

/-! ### The obligations -/

/-- Settles O45: no instruction lists a shared port in `inputs`, and the one register is the OUTPUT of the port, which
the outside world moves first and an OUT of the step overwrites. -/
theorem stepKeepsSharedPortsAgreeing : Obligations.StepKeepsSharedPortsAgreeing := by
  intro s t hagree hstep
  have hparams : t.params = s.params := step_params_eq hstep
  obtain ⟨w₀, hw₀, heff₀⟩ := step_next_effect hstep
  refine ⟨hagree.congr hparams heff₀.inputs_eq, fun p w hp hw => ?_⟩
  have hheld : t.heldInput p = t.outPort p := State.heldInput_of_shared (by rw [State.ioShared_congr hparams, hp])
  rw [hheld]
  constructor
  · intro b hout
    rw [step_of_codeWord hw, hout, exec_outPort] at hstep
    cases hstep
    exact s.outside.outPort_afterOut_self b p
  · intro hno
    rw [(effect_of_step hw hstep).outPort_eq_of_no_out hno, State.outPort_outside]

/-- Settles O30, from the one form of a next state that writes memory, the ST's. -/
theorem onlyStoreChangesMemory : Obligations.OnlyStoreChangesMemory := by
  intro s t hstep
  obtain ⟨w, hw, heff⟩ := step_next_effect hstep
  rcases heff.memory_eq_or_store with ⟨hmem, himem⟩ | ⟨b, a, n6, hst, rfl⟩
  · left
    intro addr
    rw [hmem, himem]
    exact ⟨rfl, rfl⟩
  · right
    have hdata : ∀ addr, ((s.outside.writeData (s.effectiveAddress a n6) (s.reg b)).advance).dataWord addr =
        if s.effectiveAddress a n6 = addr then some (s.reg b) else s.dataWord addr :=
      fun addr => s.outside.dataWord_writeData (s.effectiveAddress a n6) addr (s.reg b)
    refine ⟨w, b, a, n6, hw, hst, ?_, fun addr hne => ?_, fun _ => rfl⟩
    · exact (hdata _).trans (if_pos rfl)
    · exact (hdata addr).trans (if_neg hne.symm)

/-- Settles O33: a taken branch has one next state, and every other form of a next state advances the pc. The outside
world's move changes neither the pc nor a register, so the branch is taken after it exactly when it is before. -/
theorem pcAdvancesUnlessBranchTaken : Obligations.PcAdvancesUnlessBranchTaken := by
  intro s t w hw hstep
  refine ⟨fun target htaken => ?_, fun hnot => ?_⟩
  · have htaken' : BranchTaken (decode w) s.outside target := htaken
    rw [step_of_codeWord hw, exec_of_branchTaken htaken'] at hstep
    cases hstep
    rfl
  · exact (effect_of_step hw hstep).pc_eq_of_not_taken hnot

/-- Settles O38: the OUT leaves its value in the one register, where the outside world may replace it, and leaves
alone an INPUT with a register of its own and the answers listed. -/
theorem inputAfterOutput : Obligations.InputAfterOutput := by
  intro b d p s t hout
  rw [exec_outPort] at hout
  cases hout
  refine ⟨fun hp => ?_, fun hp => ?_, fun hp => ?_⟩
  · obtain ⟨u, hu, hread⟩ := exec_inPort_reads d p (s.afterOut b p)
    refine ⟨u, hu, ?_⟩
    rw [hread, State.inRead_of_shared (by simpa using hp)]
    simp
  · obtain ⟨u, hu, hread⟩ := exec_inPort_reads d p (s.afterOut b p).outside
    refine ⟨u, hu, ?_⟩
    rw [hread, State.inRead_of_shared (by simpa using hp), State.outPort_outside]
    cases (s.afterOut b p).outsideMove p <;> simp
  · obtain ⟨u, hu, hread⟩ := exec_inPort_reads d p (s.afterOut b p)
    refine ⟨u, hu, ?_⟩
    rw [hread, State.inRead_of_distinct (by simpa using hp), State.heldInput_afterOut_of_distinct b p hp]
    simp

/-- Settles O41: the register written is the only one a next state changes, and a register that is not read is lost
or carried through. -/
theorem registersReadAndWritten : Obligations.RegistersReadAndWritten := by
  intro i s
  refine ⟨fun t r h hw => (exec_next_effect h).reg_eq_of_not_written hw, fun t r v h hr hw => ?_,
    fun t r v h hr hw => ?_⟩
  · simp [exec_setReg_of_not_read hr, h, carryReg, hw]
  · simp [exec_setReg_of_not_read hr, h, carryReg, hw]

/-- Settles O42: `exec` has only the two stops of 60_exceptions.md R141, which the hypotheses exclude. -/
theorem legalInstructionsComplete : Obligations.LegalInstructionsComplete := by
  intro s w hw hlegal hload
  rw [step_of_codeWord hw]
  cases hexec : exec (decode w) s.outside with
  | next t => exact ⟨t, rfl⟩
  | refused r => exact absurd hexec (exec_not_refused _ _ r)
  | fault f =>
    rcases exec_fault_cases hexec with ⟨hillegal, -⟩ | ⟨d, a, n6, hld, hnone, -⟩
    · rw [State.outside_params, hlegal] at hillegal
      cases hillegal
    · exact absurd hnone (hload d a n6 hld)

/-- Settles O55, load by load. -/
theorem launchMeetsInvariants : Obligations.LaunchMeetsInvariants := fun l =>
  have h := l.initial_meetsInvariants
  ⟨h.wf, h.shared, h.outputs⟩

/-- Settles O54: the presented value stands where an IN from the port looks, after the answers listed for it. -/
theorem presentedInputIsRead : Obligations.PresentedInputIsRead := by
  intro d p v s
  obtain ⟨t, ht, hread⟩ := exec_inPort_reads d p (s.presentInput p v)
  have hheld : (s.presentInput p v).heldInput p = some v := by simp [State.heldInput_presentInput]
  refine ⟨⟨t, ht, fun hp => ?_, fun hp => ?_⟩, hheld, fun hp => ?_, fun hp => ?_, fun q hq => ⟨?_, ?_⟩,
    fun _ => rfl, fun _ => ⟨rfl, rfl⟩, rfl, rfl⟩
  · rw [hread, State.inRead_of_shared (by simpa using hp)]
    simp [State.outPort_presentInput, hp]
  · rw [hread, State.inRead_of_distinct (by simpa using hp), hheld]
    rw [State.listedAnswer_presentInput]
    cases s.listedAnswer p <;> simp
  · simp [State.outPort_presentInput, hp]
  · simp [State.outPort_presentInput, hp]
  · simp [State.heldInput_presentInput, hq.symm]
  · simp [State.outPort_presentInput, hq.symm]

end Sys2Proof.Machine
end

section
/-! PROOFS of the family 20_memory: what a load and a fetch read after a store, and after a word is placed. -/

namespace Sys2Proof.Machine

/-! ### What a store leaves to be read -/

/-- The state after an ST (44_memory_access.md R117). -/
def State.afterStore (s : State) (b a : RegNum) (n6 : Imm6) : State :=
  (s.writeData (s.effectiveAddress a n6) (s.reg b)).advance

theorem exec_st (b a : RegNum) (n6 : Imm6) (s : State) : exec (.st b a n6) s = .next (s.afterStore b a n6) := rfl

@[simp] theorem State.dataWord_advance (s : State) (addr : Word) : s.advance.dataWord addr = s.dataWord addr := rfl
@[simp] theorem State.codeWord_advance (s : State) (addr : Word) : s.advance.codeWord addr = s.codeWord addr := rfl

section
variable (s : State) (b a : RegNum) (n6 : Imm6)

@[simp] theorem State.pc_afterStore : (s.afterStore b a n6).pc = s.pc + 1#16 := rfl

theorem State.dataWord_afterStore_self :
    (s.afterStore b a n6).dataWord (s.effectiveAddress a n6) = some (s.reg b) := by
  simp [State.afterStore, State.dataWord_writeData]

/-- In unified memory a fetch reads the memory that ST writes (20_memory.md R51). -/
theorem State.codeWord_afterStore_self {s : State} (h : s.params.memoryOrganisation = .unified) :
    (s.afterStore b a n6).codeWord (s.effectiveAddress a n6) = some (s.reg b) := by
  simp [State.afterStore, State.codeWord_writeData_unified, h]

end

/-- LD from a word that holds a value completes (44_memory_access.md R116). -/
theorem exec_ld_of_dataWord {s : State} {a : RegNum} {n6 : Imm6} {v : Word}
    (h : s.dataWord (s.effectiveAddress a n6) = some v) (d : RegNum) :
    exec (.ld d a n6) s = .next (s.setReg d v).advance := by
  simp [exec, execLd, h]

/-! ### What a fetch reads -/

/-- No instruction writes the instruction memory (20_memory.md R52). -/
theorem Effect.imem_eq {i : Instr} {s t : State} (h : Effect i s t) : t.imem = s.imem := by
  cases h <;> simp

theorem State.codeWord_of_harvard {s : State} (h : s.params.memoryOrganisation = .harvard) (addr : Word) :
    s.codeWord addr = s.imem.read addr.toNat := by
  simp [State.codeWord, h]

/-- A word of 16 bits is placed at the pc as it is. -/
theorem State.withFetchWord_toNat (s : State) (w : Word) : s.withFetchWord 16 w.toNat = s.placeCode s.pc w := by
  rw [State.withFetchWord, Nat.mod_eq_of_lt w.isLt, BitVec.ofNat_toNat, BitVec.setWidth_eq]

/-! ### The obligations -/

/-- Settles O27: the load reads the word the store left at the address the two share. -/
theorem loadAfterStoreReturnsValue : Obligations.LoadAfterStoreReturnsValue := by
  intro b a d c n m s t hst haddr
  rw [exec_st] at hst
  cases hst
  have hword : (s.afterStore b a n).dataWord ((s.afterStore b a n).effectiveAddress c m) = some (s.reg b) := by
    rw [haddr, State.dataWord_afterStore_self]
  exact ⟨_, exec_ld_of_dataWord hword d, by simp⟩

/-- Settles O28: the store advances the pc to the address it wrote, where the fetch finds the word stored. -/
theorem storeIntoNextInstructionIsFetched : Obligations.StoreIntoNextInstructionIsFetched := by
  intro s t w b a n6 hunified hw hst haddr hstep
  rw [step_of_codeWord hw, hst, exec_st] at hstep
  cases hstep
  have hfetched : (s.outside.afterStore b a n6).codeWord (s.pc + 1#16) = some (s.reg b) := by
    rw [← haddr]
    exact State.codeWord_afterStore_self b a n6 (s := s.outside) hunified
  exact step_of_codeWord (by rw [State.pc_afterStore, State.outside_pc, hfetched])

/-- Settles O29: under harvard a fetch reads the instruction memory, which neither the outside world nor an
instruction writes. -/
theorem harvardProgramNeverChanges : Obligations.HarvardProgramNeverChanges := by
  intro s t hharvard hstep addr
  obtain ⟨w, -, heff⟩ := step_next_effect hstep
  have himem : t.imem = s.imem := heff.imem_eq
  have hharvard' : t.params.memoryOrganisation = .harvard := by rw [step_params_eq hstep, hharvard]
  rw [State.codeWord_of_harvard hharvard', State.codeWord_of_harvard hharvard, himem]

/-- Settles O8: the word placed at the pc is the one a fetch finds, and placing it changes neither the pc nor a
register. -/
theorem placedWordIsFetched : Obligations.PlacedWordIsFetched := by
  intro s w
  rw [State.withFetchWord_toNat]
  have hfetched : (s.placeCode s.pc w).codeWord (s.placeCode s.pc w).pc = some w := by
    simp [State.codeWord_placeCode]
  exact ⟨step_of_codeWord hfetched, s.placeCode_pc s.pc w, s.reg_placeCode s.pc w⟩

end Sys2Proof.Machine
end

section
/-! PROOFS of the family 30_encoding: the two round trips of decoder and encoder, the opcode table, the words that are
Illegal, and the unconditional branch made of two. -/

namespace Sys2Proof

/-! ### The values of the fields that select a row -/

theorem function_cases (f : BitVec 3) :
    f = 0#3 ∨ f = 1#3 ∨ f = 2#3 ∨ f = 3#3 ∨ f = 4#3 ∨ f = 5#3 ∨ f = 6#3 ∨ f = 7#3 := by
  revert f; decide

theorem bit_cases (e : BitVec 1) : e = 0#1 ∨ e = 1#1 := by
  revert e; decide

/-- Bit 15 of a word is set exactly in the operation codes 1000 to 1111. -/
theorem getLsbD_fifteen_iff (w : Word) : w.getLsbD 15 = true ↔ 8 ≤ (fieldC w).toNat := by
  have hhigh : ∀ c : BitVec 4, c.getLsbD 3 = true ↔ 8 ≤ c.toNat := by decide
  rw [← hhigh]
  simp [fieldC]

/-! ### The words of operation codes 1000 to 1111 -/

theorem getLsbD_fifteen_encode_unusedOpcode (rest : BitVec 15) :
    (encode (.unusedOpcode rest)).getLsbD 15 = true := by
  rw [encode, BitVec.getLsbD_append]
  simp

theorem extractLsb'_encode_unusedOpcode (rest : BitVec 15) :
    (encode (.unusedOpcode rest)).extractLsb' 0 15 = rest := by
  apply BitVec.eq_of_getLsbD_eq
  intro i hi
  rw [BitVec.getLsbD_extractLsb', encode, BitVec.getLsbD_append]
  simp [hi]

/-- A word with bit 15 set is that bit and its low 15 bits. -/
theorem encode_unusedOpcode_low_bits {w : Word} (h : w.getLsbD 15 = true) :
    encode (.unusedOpcode (w.extractLsb' 0 15)) = w := by
  apply BitVec.eq_of_getLsbD_eq
  intro i hi
  rw [encode, BitVec.getLsbD_append]
  by_cases hlow : i < 15
  · simp [hlow]
  · obtain rfl : i = 15 := by omega
    simp [h]

theorem decode_of_bit_fifteen {w : Word} (h : w.getLsbD 15 = true) :
    decode w = .unusedOpcode (w.extractLsb' 0 15) := by
  rw [getLsbD_fifteen_iff] at h
  unfold decode
  split
  case h_9 => rfl
  all_goals omega

/-! ### The two round trips -/

/-- Decoding undoes encoding, format by format: the decoder finds each field where the format puts it. -/
theorem decode_encode {i : Instr} (hi : i.wellFormed = true) : decode (encode i) = i := by
  cases i with
  | and d a b | or d a b | xor d a b | not d a | add d a b | sub d a b | sha d a b | shl d a b =>
    simp [encode, decode, decodeArithLogic]
  | notBbb d a b =>
    have hb : b ≠ 0#3 := by simpa [Instr.wellFormed] using hi
    simp [encode, decode, decodeArithLogic, hb]
  | cmplt d a b | cmple d a b | cmpeq d a b | cmpltu d a b | cmpleu d a b
  | unusedCompare2 d a b | unusedCompare6 d a b | unusedCompare7 d a b =>
    simp [encode, decode, decodeCompare]
  | addi d a n6 | ld d a n6 | st b a n6 => simp [encode, decode]
  | movi d n8 | movhi d n8 | bz b n8 | bnz b n8 | inPort d n8 | outPort b n8 => simp [encode, decode]
  | unusedOpcode rest =>
    rw [decode_of_bit_fifteen (getLsbD_fifteen_encode_unusedOpcode rest), extractLsb'_encode_unusedOpcode]

theorem encode_decodeArithLogic (f : BitVec 3) (d a b : RegNum) :
    encode (decodeArithLogic f d a b) = enc3 0#4 d a f b := by
  rcases function_cases f with rfl | rfl | rfl | rfl | rfl | rfl | rfl | rfl
  case inr.inr.inr.inl =>
    -- fff = 011 is NOT or the row of R72, by bbb.
    by_cases hb : b = 0#3 <;> simp [decodeArithLogic, encode, hb]
  all_goals rfl

theorem encode_decodeCompare (f : BitVec 3) (d a b : RegNum) :
    encode (decodeCompare f d a b) = enc3 1#4 d a f b := by
  rcases function_cases f with rfl | rfl | rfl | rfl | rfl | rfl | rfl | rfl <;> rfl

section
variable {w : Word} {c : BitVec 4}

theorem enc3_of_fieldC (hc : (fieldC w).toNat = c.toNat) :
    enc3 c (fieldD w) (fieldA w) (fieldF w) (fieldB w) = w := by
  rw [← BitVec.eq_of_toNat_eq hc, enc3_fields]

theorem enc2_of_fieldC (hc : (fieldC w).toNat = c.toNat) : enc2 c (fieldD w) (fieldA w) (fieldN6 w) = w := by
  rw [← BitVec.eq_of_toNat_eq hc, enc2_fields]

theorem enc1_of_fieldC_fieldE {e : BitVec 1} (hc : (fieldC w).toNat = c.toNat) (he : fieldE w = e) :
    enc1 c (fieldD w) e (fieldN8 w) = w := by
  rw [← BitVec.eq_of_toNat_eq hc, ← he, enc1_fields]

end

/-- Encoding undoes decoding, operation code by operation code: each format is rebuilt from its fields. -/
theorem encode_decode (w : Word) : encode (decode w) = w := by
  unfold decode
  split
  case h_1 hc => exact (encode_decodeArithLogic _ _ _ _).trans (enc3_of_fieldC hc)
  case h_2 hc => exact (encode_decodeCompare _ _ _ _).trans (enc3_of_fieldC hc)
  case h_3 hc | h_4 hc | h_5 hc => exact enc2_of_fieldC hc
  case h_6 hc | h_7 hc | h_8 hc =>
    split
    next he => exact enc1_of_fieldC_fieldE hc he
    next he => exact enc1_of_fieldC_fieldE hc ((bit_cases _).resolve_left he)
  case h_9 => exact encode_unusedOpcode_low_bits ((getLsbD_fifteen_iff w).mpr (by grind))

theorem wellFormed_decodeArithLogic (f : BitVec 3) (d a b : RegNum) :
    (decodeArithLogic f d a b).wellFormed = true := by
  unfold decodeArithLogic
  split
  case h_4 => split <;> simp_all [Instr.wellFormed]
  all_goals rfl

theorem wellFormed_decodeCompare (f : BitVec 3) (d a b : RegNum) :
    (decodeCompare f d a b).wellFormed = true := by
  rcases function_cases f with rfl | rfl | rfl | rfl | rfl | rfl | rfl | rfl <;> rfl

theorem wellFormed_decode (w : Word) : (decode w).wellFormed = true := by
  unfold decode
  split
  case h_1 => exact wellFormed_decodeArithLogic _ _ _ _
  case h_2 => exact wellFormed_decodeCompare _ _ _ _
  case h_6 | h_7 | h_8 => split <;> rfl
  all_goals rfl

/-! ### The opcode table -/

theorem TableRow.accepts_iff (r : TableRow) (w : Word) : r.accepts w = true ↔ w &&& r.mask = r.bits := by
  simp [TableRow.accepts]

/-- Two rows that accept one word agree on the bits that both of their masks keep. -/
theorem TableRow.agree_of_accepts {r₁ r₂ : TableRow} {w : Word} (h₁ : r₁.accepts w = true)
    (h₂ : r₂.accepts w = true) : r₁.bits &&& r₂.mask = r₂.bits &&& r₁.mask := by
  rw [TableRow.accepts_iff] at h₁ h₂
  rw [← h₁, ← h₂, BitVec.and_assoc, BitVec.and_assoc, BitVec.and_comm r₁.mask]

theorem instructionRows_eq_of_agree :
    ∀ r₁ ∈ arithLogicRows ++ compareRows ++ immediateRows,
      ∀ r₂ ∈ arithLogicRows ++ compareRows ++ immediateRows,
        r₁.bits &&& r₂.mask = r₂.bits &&& r₁.mask → r₁ = r₂ := by
  decide

/-- Of a row and a later one of the opcode table, only NOT and the row of R72 agree on the bits both masks keep. -/
theorem opcodeTable_pairwise : opcodeTable.Pairwise fun r₁ r₂ =>
    r₁.bits &&& r₂.mask = r₂.bits &&& r₁.mask →
      r₁ = ⟨"NOT", 0xF03F#16, 0x0018#16⟩ ∧ r₂.mnemonic = "NOT_with_bbb____000" := by
  decide

open Laws in
/-- Every instruction's word is accepted by the row of its mnemonic. -/
theorem encodesToRow (i : Instr) : EncodesToRow.Statement i := by
  cases i with
  | and d a b => exact EncodesToRow.and d a b
  | or d a b => exact EncodesToRow.or d a b
  | xor d a b => exact EncodesToRow.xor d a b
  | not d a => exact EncodesToRow.not d a
  | add d a b => exact EncodesToRow.add d a b
  | sub d a b => exact EncodesToRow.sub d a b
  | sha d a b => exact EncodesToRow.sha d a b
  | shl d a b => exact EncodesToRow.shl d a b
  | cmplt d a b => exact EncodesToRow.cmplt d a b
  | cmple d a b => exact EncodesToRow.cmple d a b
  | cmpeq d a b => exact EncodesToRow.cmpeq d a b
  | cmpltu d a b => exact EncodesToRow.cmpltu d a b
  | cmpleu d a b => exact EncodesToRow.cmpleu d a b
  | addi d a n6 => exact EncodesToRow.addi d a n6
  | ld d a n6 => exact EncodesToRow.ld d a n6
  | st b a n6 => exact EncodesToRow.st b a n6
  | movi d n8 => exact EncodesToRow.movi d n8
  | movhi d n8 => exact EncodesToRow.movhi d n8
  | bz b n8 => exact EncodesToRow.bz b n8
  | bnz b n8 => exact EncodesToRow.bnz b n8
  | inPort d n8 => exact EncodesToRow.inPort d n8
  | outPort b n8 => exact EncodesToRow.outPort b n8
  | unusedOpcode rest => exact EncodesToRow.unusedOpcode rest
  | unusedCompare2 d a b => exact EncodesToRow.unusedCompare2 d a b
  | unusedCompare6 d a b => exact EncodesToRow.unusedCompare6 d a b
  | unusedCompare7 d a b => exact EncodesToRow.unusedCompare7 d a b
  | notBbb d a b => exact EncodesToRow.notBbb d a b

/-- The row of NOT accepts no word of a well-formed instruction that has the mnemonic of the row of R72. -/
theorem not_row_rejects {i : Instr} (hi : i.wellFormed = true) (hm : i.mnemonic = "NOT_with_bbb____000") :
    (⟨"NOT", 0xF03F#16, 0x0018#16⟩ : TableRow).accepts (encode i) = false := by
  cases i
  case notBbb d a b =>
    rw [Bool.eq_false_iff, ne_eq, TableRow.accepts_iff, encode, Laws.EncodesToRow.enc3_mask_not]
    intro h
    have hb : b = 0#3 := (fieldB_enc3 ..).symm.trans (congrArg fieldB h)
    simp [Instr.wellFormed, hb] at hi
  all_goals simp [Instr.mnemonic] at hm

/-- The first row that accepts the word of a well-formed instruction is the row of its mnemonic: an earlier row
that accepted it could only be the row of NOT. -/
theorem find?_opcodeTable {i : Instr} (hi : i.wellFormed = true) :
    (opcodeTable.find? (·.accepts (encode i))).map (·.mnemonic) = some i.mnemonic := by
  obtain ⟨r, hr, hmnemonic, haccepts⟩ := encodesToRow i
  obtain ⟨before, after, htable⟩ := List.append_of_mem hr
  have hbefore : ∀ r' ∈ before, (!r'.accepts (encode i)) = true := by
    intro r' hr'
    obtain ⟨-, -, hearlier⟩ := List.pairwise_append.mp (htable ▸ opcodeTable_pairwise)
    by_contra haccepts'
    rw [Bool.not_eq_true', Bool.not_eq_false] at haccepts'
    obtain ⟨rfl, hnot⟩ := hearlier r' hr' r List.mem_cons_self (TableRow.agree_of_accepts haccepts' haccepts)
    rw [not_row_rejects hi (hmnemonic ▸ hnot)] at haccepts'
    cases haccepts'
  have hfind : opcodeTable.find? (·.accepts (encode i)) = some r :=
    List.find?_eq_some_iff_append.mpr ⟨haccepts, before, after, htable, hbefore⟩
  rw [hfind, Option.map_some, hmnemonic]

/-! ### Illegal words -/

/-- The fields of a well-formed instruction's word say whether it is Illegal (30_encoding.md R67, R70 to R72). -/
theorem illegalUnder_iff {i : Instr} (hi : i.wellFormed = true) (policy : NotBbbPolicy) :
    i.illegalUnder policy = true ↔
      8 ≤ (fieldC (encode i)).toNat ∨
      (fieldC (encode i) = 1#4 ∧
        (fieldF (encode i) = 2#3 ∨ fieldF (encode i) = 6#3 ∨ fieldF (encode i) = 7#3)) ∨
      (policy = .fault ∧ fieldC (encode i) = 0#4 ∧ fieldF (encode i) = 3#3 ∧ fieldB (encode i) ≠ 0#3) := by
  cases i with
  | unusedOpcode rest =>
    have hc := (getLsbD_fifteen_iff _).mp (getLsbD_fifteen_encode_unusedOpcode rest)
    simp [Instr.illegalUnder, hc]
  | notBbb d a b =>
    have hb : b ≠ 0#3 := by simpa [Instr.wellFormed] using hi
    simp [Instr.illegalUnder, encode, hb]
  | unusedCompare2 d a b | unusedCompare6 d a b | unusedCompare7 d a b => simp [Instr.illegalUnder, encode]
  | and d a b | or d a b | xor d a b | not d a | add d a b | sub d a b | sha d a b | shl d a b
  | cmplt d a b | cmple d a b | cmpeq d a b | cmpltu d a b | cmpleu d a b
  | addi d a n6 | ld d a n6 | st b a n6
  | movi d n8 | movhi d n8 | bz b n8 | bnz b n8 | inPort d n8 | outPort b n8 =>
    simp [Instr.illegalUnder, encode]

end Sys2Proof

namespace Sys2Proof.Machine

/-! ### What a branch and the outside world leave unchanged -/

theorem WritesOnlyPc.setPc (s : State) (target : Word) : WritesOnlyPc s (s.setPc target) :=
  ⟨fun _ => rfl, fun _ => ⟨rfl, rfl⟩, ⟨fun _ => rfl, fun _ => rfl, rfl, rfl⟩, rfl⟩

theorem WritesOnlyPc.trans {s t u : State} (hst : WritesOnlyPc s t) (htu : WritesOnlyPc t u) : WritesOnlyPc s u := by
  obtain ⟨hregs, hmem, ⟨hheld, hout, htrace, hchanges⟩, hparams⟩ := hst
  obtain ⟨hregs', hmem', ⟨hheld', hout', htrace', hchanges'⟩, hparams'⟩ := htu
  exact ⟨fun r => (hregs' r).trans (hregs r), fun addr => ⟨(hmem' addr).1.trans (hmem addr).1,
    (hmem' addr).2.trans (hmem addr).2⟩, ⟨fun p => (hheld' p).trans (hheld p), fun p => (hout' p).trans (hout p),
    htrace'.trans htrace, hchanges'.trans hchanges⟩, hparams'.trans hparams⟩

theorem onlySharedPortsChange_outside (s : State) : OnlySharedPortsChange s s.outside := by
  refine ⟨fun _ => rfl, fun _ => ⟨rfl, rfl⟩, fun p hp => ?_, rfl, rfl⟩
  simp [State.heldInput_outside, State.outPort_outside, State.outsideMove_of_distinct hp]

theorem OnlySharedPortsChange.trans {s t u : State} (hst : OnlySharedPortsChange s t)
    (htu : OnlySharedPortsChange t u) : OnlySharedPortsChange s u := by
  obtain ⟨hregs, hmem, hports, htrace, hparams⟩ := hst
  obtain ⟨hregs', hmem', hports', htrace', hparams'⟩ := htu
  refine ⟨fun r => (hregs' r).trans (hregs r), fun addr => ⟨(hmem' addr).1.trans (hmem addr).1,
    (hmem' addr).2.trans (hmem addr).2⟩, fun p hp => ?_, htrace'.trans htrace, hparams'.trans hparams⟩
  obtain ⟨hheld, hout⟩ := hports p hp
  obtain ⟨hheld', hout'⟩ := hports' p (by rw [State.ioShared_congr hparams, hp])
  exact ⟨hheld'.trans hheld, hout'.trans hout⟩

theorem WritesOnlyPc.onlySharedPortsChange {s t : State} (h : WritesOnlyPc s t) : OnlySharedPortsChange s t := by
  obtain ⟨hregs, hmem, ⟨hheld, hout, htrace, -⟩, hparams⟩ := h
  exact ⟨hregs, hmem, fun p _ => ⟨hheld p, hout p⟩, htrace, hparams⟩

/-- What a step that ends in a branch, taken or not, leaves unchanged. -/
theorem onlySharedPortsChange_outside_setPc (s : State) (target : Word) :
    OnlySharedPortsChange s (s.outside.setPc target) :=
  (onlySharedPortsChange_outside s).trans (WritesOnlyPc.setPc s.outside target).onlySharedPortsChange

theorem writesOnlyPc_outside_setPc {s : State} (hquiet : s.portChanges = .listed []) (target : Word) :
    WritesOnlyPc s (s.outside.setPc target) := by
  rw [State.outside_of_quiet hquiet]
  exact WritesOnlyPc.setPc s target

/-- BZ of a register that is not zero goes to the next instruction (45_branches.md R121). -/
theorem exec_bz_of_ne_zero {s : State} {b : RegNum} (h : s.reg b ≠ 0#16) (n8 : Imm8) :
    exec (.bz b n8) s = .next s.advance := by
  simp [exec, execBz, State.branchIf, isZeroWord, h]

/-- A branch at the pc that is taken brings a step to its target. -/
theorem step_of_branchTaken {s : State} {w target : Word} (hw : s.codeWord s.pc = some w)
    (h : BranchTaken (decode w) s target) : step s = .next (s.outside.setPc target) := by
  have htaken : BranchTaken (decode w) s.outside target := h
  rw [step_of_codeWord hw, exec_of_branchTaken htaken]

/-! ### What an instruction that writes one register leaves unchanged -/

theorem writesOnlyReg_setReg_advance (s : State) (d : RegNum) (v : Word) :
    WritesOnlyReg d s (s.setReg d v).advance :=
  ⟨fun _ hr => s.reg_setReg_of_ne v hr, fun _ => ⟨rfl, rfl⟩, ⟨fun _ => rfl, fun _ => rfl, rfl, rfl⟩, rfl⟩

/-! ### The obligations -/

/-- Settles O2, instruction by instruction of each format. -/
theorem decodeOfEncode : Obligations.DecodeOfEncode :=
  fun _ hi => decode_encode hi

/-- Settles O3, operation code by operation code. -/
theorem encodeOfDecode : Obligations.EncodeOfDecode :=
  fun w => ⟨encode_decode w, wellFormed_decode w⟩

/-- Settles O4: every word is that of a well-formed instruction, whose row is the first to accept it. -/
theorem decodeFollowsOpcodeTable : Obligations.DecodeFollowsOpcodeTable := by
  intro w
  have hfirst := find?_opcodeTable (wellFormed_decode w)
  rwa [encode_decode] at hfirst

/-- Settles O5: rows that accept one word agree where both look, and no two instruction rows do. -/
theorem instructionRowsDisjoint : Obligations.InstructionRowsDisjoint :=
  fun _ r₁ hr₁ r₂ hr₂ h₁ h₂ => instructionRows_eq_of_agree r₁ hr₁ r₂ hr₂ (TableRow.agree_of_accepts h₁ h₂)

/-- Settles O6: every word is that of a well-formed instruction, whose fields say whether it is Illegal. -/
theorem illegalWords : Obligations.IllegalWords := by
  intro policy w
  have hfields := illegalUnder_iff (wellFormed_decode w) policy
  rw [encode_decode] at hfields
  rw [getLsbD_fifteen_iff]
  exact hfields

/-- Settles O35: BZ takes the branch of a zero register, and where it does not, BNZ in the next word does. -/
theorem branchPairIsUnconditional : Obligations.BranchPairIsUnconditional := by
  intro s w₁ w₂ target b n m hw₁ hw₂ hbz hbnz htarget₁ htarget₂
  by_cases hzero : s.reg b = 0#16
  · have hstep : step s = .next (s.outside.setPc target) :=
      step_of_branchTaken hw₁ (.inl ⟨b, n, hbz, hzero, htarget₁.symm⟩)
    exact ⟨1, _, .inl rfl, core_run_succ hstep 0, rfl, onlySharedPortsChange_outside_setPc s target,
      fun hquiet => writesOnlyPc_outside_setPc hquiet target⟩
  · let u := s.outside.setPc (s.pc + 1#16)
    have hfalls : step s = .next u := by
      rw [step_of_codeWord hw₁, hbz]
      exact exec_bz_of_ne_zero (s := s.outside) hzero n
    have hjumps : step u = .next (u.outside.setPc target) :=
      step_of_branchTaken (s := u) hw₂ (.inr ⟨b, m, hbnz, hzero, htarget₂.symm⟩)
    refine ⟨2, _, .inr rfl, (core_run_succ hfalls 1).trans (core_run_succ hjumps 0), rfl,
      (onlySharedPortsChange_outside_setPc s _).trans (onlySharedPortsChange_outside_setPc u target), fun hquiet => ?_⟩
    have hquiet' : u.portChanges = .listed [] := by simp [u, hquiet, PortChanges.afterStep]
    exact (writesOnlyPc_outside_setPc hquiet _).trans (writesOnlyPc_outside_setPc hquiet' target)

/-- Settles O39: the meanings of these words raise the fault with the word of the encoder. -/
theorem unusedWordsStop : Obligations.UnusedWordsStop :=
  fun _ => ⟨fun _ => rfl, fun _ _ _ => rfl, fun _ _ _ => rfl, fun _ _ _ => rfl⟩

/-- Settles O40: under `ignore` the meaning is that of NOT. -/
theorem notWithBbbFollowsPolicy : Obligations.NotWithBbbFollowsPolicy := by
  intro d a b s
  refine ⟨fun hfault => ?_, fun hignore => ?_⟩
  · simp [exec, execNotBbb, hfault, raiseIllegal, encode, enc3]
  · refine ⟨(s.setReg d (~~~ s.reg a)).advance, ?_, rfl, fun i hi => ?_, rfl, writesOnlyReg_setReg_advance s d _⟩
    · simp [exec, execNotBbb, hignore]
    · simp [hi]

end Sys2Proof.Machine
end

section
/-! PROOFS of the family 41_arith_logic: the results of AND, OR, XOR, NOT, ADD and SUB, and the two readings of the
shifts, as arithmetic and bit by bit. -/

namespace Sys2Proof

/-! ### The encoding of the 3-Reg format -/

/-- The lines "Encoding" of an instruction of the 3-Reg format under the mask of cccc and fff (30_encoding.md R62). -/
theorem encodedAs_enc3 {i : Instr} {c : BitVec 4} {d a b : RegNum} {f : BitVec 3} {bits : Word}
    (hword : encode i = enc3 c d a f b) (hbits : enc3 c 0#3 0#3 f 0#3 = bits) (hi : i.wellFormed = true) :
    EncodedAs i 0xF038#16 bits (c ++ d ++ a ++ f ++ b) :=
  encodedAs_of_round_trip (by rw [hword, Laws.EncodesToRow.enc3_mask, hbits]) hword (decode_encode hi)

/-! ### The integer and natural readings of NOT and SUB -/

theorem toInt_not_eq_neg_sub_one (x : Word) : (~~~x).toInt = -x.toInt - 1 := by
  have hx := x.isLt
  rw [BitVec.toInt_eq_toNat_cond, BitVec.toInt_eq_toNat_cond, BitVec.toNat_not]
  split <;> split <;> omega

theorem natCast_toNat_sub (x y : Word) : ((x - y).toNat : Int) = ((x.toNat : Int) - y.toNat) % 65536 := by
  have hy := y.isLt
  rw [BitVec.toNat_sub]
  omega

theorem ofInt_toInt_sub (x y : Word) : BitVec.ofInt 16 (x.toInt - y.toInt) = x - y := by
  rw [Int.sub_eq_add_neg, BitVec.ofInt_add, BitVec.ofInt_neg, BitVec.ofInt_toInt, BitVec.ofInt_toInt,
    BitVec.sub_eq_add_neg]

end Sys2Proof

namespace Sys2Proof.Machine

/-! ### The shifts as shifts of bit vectors -/

/-- The count of a shift lies in the range of R14. -/
theorem shiftCount_bounds (k : BitVec 5) : -16 ≤ shiftCount k ∧ shiftCount k ≤ 15 :=
  ⟨BitVec.le_toInt k, BitVec.toInt_le⟩

section
variable (x : Word) {k : BitVec 5}

theorem ofNat_mul_two_pow (n : Nat) : BitVec.ofNat 16 (x.toNat * 2 ^ n) = x <<< n :=
  BitVec.eq_of_toNat_eq (by rw [BitVec.toNat_ofNat, BitVec.toNat_shiftLeft, Nat.shiftLeft_eq])

/-- A count that is not negative shifts left. -/
theorem shiftLogical_of_nonneg (h : 0 ≤ shiftCount k) : shiftLogical x k = x <<< (shiftCount k).toNat := by
  rw [shiftLogical, if_pos h, ofNat_mul_two_pow]

/-- A negative count shifts right; the quotient of the natural reading is the logical shift. -/
theorem shiftLogical_of_neg (h : shiftCount k < 0) : shiftLogical x k = x >>> (-shiftCount k).toNat := by
  rw [shiftLogical, if_neg (Int.not_le.mpr h), ← Nat.shiftRight_eq_div_pow, ← BitVec.toNat_ushiftRight,
    BitVec.ofNat_toNat, BitVec.setWidth_eq]

theorem shiftArithmetic_of_nonneg (h : 0 ≤ shiftCount k) : shiftArithmetic x k = shiftLogical x k := by
  rw [shiftArithmetic, shiftLogical, if_pos h, if_pos h]

/-- A negative count shifts right; the quotient of the integer reading, rounded down, is the arithmetic shift. -/
theorem shiftArithmetic_of_neg (h : shiftCount k < 0) :
    shiftArithmetic x k = x.sshiftRight (-shiftCount k).toNat := by
  rw [shiftArithmetic, if_neg (Int.not_le.mpr h), Int.fdiv_eq_ediv_of_nonneg _ (by positivity), BitVec.sshiftRight,
    Int.shiftRight_eq_div_pow, Int.natCast_pow, Nat.cast_ofNat]

/-! ### The two readings of a shift (00_scope.md R14) -/

/-- A left shift multiplies modulo 2^16, and zeros enter at the right. -/
theorem shiftLeft_readings (n : Nat) : (x <<< n).toNat = x.toNat * 2 ^ n % 65536 ∧
    ∀ i < 16, (x <<< n).getLsbD i = (decide (n ≤ i) && x.getLsbD (i - n)) := by
  refine ⟨by rw [BitVec.toNat_shiftLeft, Nat.shiftLeft_eq], fun i hi => ?_⟩
  simp only [BitVec.getLsbD_shiftLeft, hi, decide_true, Bool.true_and, ← decide_not, Nat.not_lt]

/-- A logical right shift divides the natural reading, and zeros enter at the left. -/
theorem ushiftRight_readings (n : Nat) : (x >>> n).toNat = x.toNat / 2 ^ n ∧
    ∀ i < 16, (x >>> n).getLsbD i = (decide (i + n < 16) && x.getLsbD (i + n)) := by
  refine ⟨by rw [BitVec.toNat_ushiftRight, Nat.shiftRight_eq_div_pow], fun i _ => ?_⟩
  rw [BitVec.getLsbD_ushiftRight, Nat.add_comm]
  by_cases hin : i + n < 16
  · simp [hin]
  · simp [hin, BitVec.getLsbD_of_ge x (i + n) (Nat.le_of_not_lt hin)]

/-- An arithmetic right shift divides the integer reading, rounded down, and copies of the sign enter at the left. -/
theorem sshiftRight_readings (n : Nat) : (x.sshiftRight n).toInt = x.toInt / 2 ^ n ∧
    ∀ i < 16, (x.sshiftRight n).getLsbD i = if i + n < 16 then x.getLsbD (i + n) else x.getLsbD 15 := by
  refine ⟨by rw [BitVec.toInt_sshiftRight, Int.shiftRight_eq_div_pow, Int.natCast_pow, Nat.cast_ofNat], fun i hi => ?_⟩
  simp [BitVec.getLsbD_sshiftRight, Nat.not_le.mpr hi, Nat.add_comm n i, BitVec.msb_eq_getLsbD_last]

end

/-! ### The instructions of the family -/

/-- An instruction that ends by writing `v` into `d` completes: `d` then holds `v`, the pc is one further, and nothing
else changes (41_arith_logic.md R90). -/
theorem exists_next_of_finishReg {i : Instr} {s : State} {d : RegNum} {v : Word} (h : exec i s = s.finishReg d v) :
    ∃ t, exec i s = .next t ∧ t.reg d = v ∧ t.pc = s.pc + 1#16 ∧ WritesOnlyReg d s t :=
  ⟨_, h, by rw [State.reg_advance, State.reg_setReg_self], rfl, writesOnlyReg_setReg_advance s d v⟩

/-- The same, with the result given bit by bit. -/
theorem exists_next_of_finishReg_bits {i : Instr} {s : State} {d : RegNum} {v : Word} {bit : Nat → Bool}
    (h : exec i s = s.finishReg d v) (hv : ∀ n < 16, v.getLsbD n = bit n) :
    ∃ t, exec i s = .next t ∧ (∀ n < 16, (t.reg d).getLsbD n = bit n) ∧ t.pc = s.pc + 1#16 ∧ WritesOnlyReg d s t := by
  obtain ⟨t, ht, hreg, hpc, hframe⟩ := exists_next_of_finishReg h
  exact ⟨t, ht, hreg ▸ hv, hpc, hframe⟩

theorem exec_shl_eq_exec_sha {s : State} {b : RegNum} (h : 0 ≤ shiftCount (shiftField (s.reg b))) (d a : RegNum) :
    exec (.shl d a b) s = exec (.sha d a b) s := by
  simp only [exec, execShl, execSha, shiftArithmetic_of_nonneg _ h]

/-! ### The obligations -/

/-- Settles O14: a count that is not negative is a left shift, the same as SHL's; a negative count is an arithmetic
right shift. -/
theorem shiftArithmeticResult : Obligations.ShiftArithmeticResult := by
  intro d a b s k hk
  obtain rfl : shiftCount (shiftField (s.reg b)) = k := hk.symm
  obtain ⟨hlow, hhigh⟩ := shiftCount_bounds (shiftField (s.reg b))
  obtain ⟨t, ht, hreg, hpc, hframe⟩ := exists_next_of_finishReg (i := .sha d a b) (s := s) rfl
  refine ⟨encodedAs_enc3 rfl (by decide) rfl, hlow, hhigh, t, ht, fun hleft => ?_, fun hright => ?_, hpc, hframe⟩
  · rw [shiftArithmetic_of_nonneg _ hleft, shiftLogical_of_nonneg _ hleft] at hreg
    obtain ⟨harith, hbits⟩ := shiftLeft_readings (s.reg a) (shiftCount (shiftField (s.reg b))).toNat
    exact ⟨hreg ▸ harith, hreg ▸ hbits, (exec_shl_eq_exec_sha hleft d a).trans ht⟩
  · rw [hreg, shiftArithmetic_of_neg _ hright]
    exact sshiftRight_readings (s.reg a) _

/-- Settles O15: a count that is not negative is a left shift, a negative count a logical right shift. -/
theorem shiftLogicalResult : Obligations.ShiftLogicalResult := by
  intro d a b s k hk
  obtain rfl : shiftCount (shiftField (s.reg b)) = k := hk.symm
  obtain ⟨hlow, hhigh⟩ := shiftCount_bounds (shiftField (s.reg b))
  obtain ⟨t, ht, hreg, hpc, hframe⟩ := exists_next_of_finishReg (i := .shl d a b) (s := s) rfl
  refine ⟨encodedAs_enc3 rfl (by decide) rfl, hlow, hhigh, t, ht, fun hleft => ?_, fun hright => ?_, hpc, hframe⟩
  · rw [hreg, shiftLogical_of_nonneg _ hleft]
    exact shiftLeft_readings (s.reg a) _
  · rw [hreg, shiftLogical_of_neg _ hright]
    exact ushiftRight_readings (s.reg a) _

/-- Settles O10: each instruction writes the operation on vectors, which acts bit by bit. -/
theorem bitwiseResults : Obligations.BitwiseResults := by
  intro d a b s
  refine ⟨⟨encodedAs_enc3 rfl (by decide) rfl, ?_⟩, ⟨encodedAs_enc3 rfl (by decide) rfl, ?_⟩,
    ⟨encodedAs_enc3 rfl (by decide) rfl, ?_⟩⟩
  · exact exists_next_of_finishReg_bits rfl fun _ _ => BitVec.getLsbD_and
  · exact exists_next_of_finishReg_bits rfl fun _ _ => BitVec.getLsbD_or
  · exact exists_next_of_finishReg_bits rfl fun _ _ => BitVec.getLsbD_xor

/-- Settles O11: the complement of a vector, bit by bit and in both readings. -/
theorem notResult : Obligations.NotResult := by
  intro d a s
  have hrow : encode (.not d a) &&& 0xF03F#16 = 0x0018#16 := by
    rw [encode, Laws.EncodesToRow.enc3_mask_not]
    decide
  obtain ⟨t, ht, hreg, hpc, hframe⟩ := exists_next_of_finishReg (i := .not d a) (s := s) rfl
  refine ⟨encodedAs_of_round_trip hrow rfl (decode_encode rfl), t, ht, fun i hi => ?_, ?_, ?_, hpc, hframe⟩
  · simp [hreg, hi]
  · rw [hreg, BitVec.toNat_not]
  · rw [hreg, toInt_not_eq_neg_sub_one]

/-- Settles O12: the sum of the vectors is the sum modulo 2^16 in both readings. -/
theorem addResult : Obligations.AddResult := by
  intro d a b s
  obtain ⟨t, ht, hreg, hpc, hframe⟩ := exists_next_of_finishReg (i := .add d a b) (s := s) rfl
  refine ⟨encodedAs_enc3 rfl (by decide) rfl, t, ht, ?_, ?_, hpc, hframe⟩
  · rw [hreg, BitVec.toNat_add]
  · rw [hreg, BitVec.ofInt_add, BitVec.ofInt_toInt, BitVec.ofInt_toInt]

/-- Settles O13: the difference of the vectors is the difference modulo 2^16 in both readings. -/
theorem subResult : Obligations.SubResult := by
  intro d a b s
  obtain ⟨t, ht, hreg, hpc, hframe⟩ := exists_next_of_finishReg (i := .sub d a b) (s := s) rfl
  refine ⟨encodedAs_enc3 rfl (by decide) rfl, t, ht, ?_, ?_, hpc, hframe⟩
  · rw [hreg, natCast_toNat_sub]
  · rw [hreg, ofInt_toInt_sub]

end Sys2Proof.Machine
end

section
/-! PROOFS of the family 42_add_immediate: the sum of a register and the signed immediate. -/

namespace Sys2Proof

/-! ### The encoding of the 2-Reg format -/

/-- The lines "Encoding" of an instruction of the 2-Reg format under the mask of cccc (30_encoding.md R63). -/
theorem encodedAs_enc2 {i : Instr} {c : BitVec 4} {d a : RegNum} {n6 : Imm6} {bits : Word}
    (hword : encode i = enc2 c d a n6) (hbits : enc2 c 0#3 0#3 0#6 = bits) (hi : i.wellFormed = true) :
    EncodedAs i 0xF000#16 bits (c ++ d ++ a ++ n6) :=
  encodedAs_of_round_trip (by rw [hword, Laws.EncodesToRow.enc2_mask, hbits]) hword (decode_encode hi)

/-! ### The sum with a signed summand -/

/-- The sum modulo 2^16 is the same with the second summand read as an integer (00_scope.md R9). -/
theorem natCast_toNat_add_toInt (x y : Word) : ((x + y).toNat : Int) = ((x.toNat : Int) + y.toInt) % 65536 := by
  rw [BitVec.toNat_add, BitVec.toInt_eq_toNat_cond]
  split <;> omega

end Sys2Proof

namespace Sys2Proof.Machine

/-- Extending the sign keeps the integer reading of the immediate (00_scope.md R10). -/
theorem toInt_sext6 (n6 : Imm6) : (sext6 n6).toInt = n6.toInt :=
  BitVec.toInt_signExtend_of_le (by decide)

/-- Settles O16: the sum of the vectors is the sum modulo 2^16 with the immediate read as an integer. -/
theorem addImmediateResult : Obligations.AddImmediateResult := by
  intro d a n6 s
  obtain ⟨t, ht, hreg, hpc, hframe⟩ := exists_next_of_finishReg (i := .addi d a n6) (s := s) rfl
  refine ⟨encodedAs_enc2 rfl (by decide) rfl, t, ht, ?_, hpc, hframe⟩
  rw [hreg, natCast_toNat_add_toInt, toInt_sext6]

end Sys2Proof.Machine
end

section
/-! PROOFS of the family 43_compare: the comparisons write 1 or 0 from the integer readings, the natural readings or
the vectors. -/

namespace Sys2Proof.Machine

/-! ### The truth values of a comparison (43_compare.md R105) -/

theorem boolWord_decide (p : Prop) [Decidable p] : boolWord (decide p) = if p then 0x0001#16 else 0x0000#16 := by
  simp only [boolWord, decide_eq_true_eq]

/-- TRUE and FALSE are different words. -/
theorem boolWord_eq_one_iff (c : Bool) : boolWord c = 0x0001#16 ↔ c = true := by
  cases c <;> decide

/-- A comparison of the condition `p` completes: Rd is 1 when `p` holds, else 0, the pc is one further, and nothing
else changes. -/
theorem exists_next_of_compare {i : Instr} {s : State} {d : RegNum} {p : Prop} [Decidable p]
    (h : exec i s = s.finishReg d (boolWord (decide p))) :
    ∃ t, exec i s = .next t ∧ t.reg d = (if p then 0x0001#16 else 0x0000#16) ∧ t.pc = s.pc + 1#16 ∧
      WritesOnlyReg d s t := by
  rw [boolWord_decide] at h
  exact exists_next_of_finishReg h

/-! ### The obligations -/

/-- Settles O17: the conditions are those of the integer readings. -/
theorem signedCompareResults : Obligations.SignedCompareResults :=
  fun _ _ _ _ => ⟨⟨encodedAs_enc3 rfl (by decide) rfl, exists_next_of_compare rfl⟩,
    ⟨encodedAs_enc3 rfl (by decide) rfl, exists_next_of_compare rfl⟩⟩

/-- Settles O18: the condition is equality of the vectors, and either reading determines the vector. -/
theorem compareEqualResult : Obligations.CompareEqualResult := by
  intro d a b s
  obtain ⟨t, ht, hreg, hpc, hframe⟩ := exists_next_of_compare (i := .cmpeq d a b) (s := s) rfl
  have hone : t.reg d = 0x0001#16 ↔ s.reg a = s.reg b := by
    rw [hreg, ← boolWord_decide, boolWord_eq_one_iff, decide_eq_true_eq]
  exact ⟨encodedAs_enc3 rfl (by decide) rfl, t, ht, hreg, hone.trans BitVec.toNat_inj.symm,
    hone.trans BitVec.toInt_inj.symm, hpc, hframe⟩

/-- Settles O19: the conditions are those of the natural readings. -/
theorem unsignedCompareResults : Obligations.UnsignedCompareResults :=
  fun _ _ _ _ => ⟨⟨encodedAs_enc3 rfl (by decide) rfl, exists_next_of_compare rfl⟩,
    ⟨encodedAs_enc3 rfl (by decide) rfl, exists_next_of_compare rfl⟩⟩

end Sys2Proof.Machine
end

section
/-! PROOFS of the family 44_memory_access: the effective address, the word LD reads, and the word ST writes with all
that it leaves unchanged. -/

namespace Sys2Proof.Machine

/-! ### What a store leaves unchanged (44_memory_access.md R117) -/

section
variable (s : State) (b a : RegNum) (n6 : Imm6)

theorem State.dataWord_afterStore_of_ne {addr : Word} (h : addr ≠ s.effectiveAddress a n6) :
    (s.afterStore b a n6).dataWord addr = s.dataWord addr := by
  simp [State.afterStore, State.dataWord_writeData, h.symm]

theorem regsUnchanged_afterStore : RegsUnchanged s (s.afterStore b a n6) := fun _ => rfl

theorem portsUnchanged_afterStore : PortsUnchanged s (s.afterStore b a n6) :=
  ⟨fun _ => rfl, fun _ => rfl, rfl, rfl⟩

end

/-! ### The obligations -/

/-- Settles O23: the sum of the vectors is the sum modulo 2^16 with the displacement read as an integer. -/
theorem effectiveAddressWraps : Obligations.EffectiveAddressWraps := by
  intro a n6 s
  rw [State.effectiveAddress, natCast_toNat_add_toInt, toInt_sext6]

/-- Settles O24: the address is that of the state before Rd is written, so Rd may be the base. -/
theorem loadResult : Obligations.LoadResult := by
  intro d a n6 s v hword
  have hexec : exec (.ld d a n6) s = s.finishReg d v := exec_ld_of_dataWord hword d
  exact ⟨encodedAs_enc2 rfl (by decide) rfl, exists_next_of_finishReg hexec⟩

/-- Settles O26: the store writes the one word at the effective address of the state before it. -/
theorem storeResult : Obligations.StoreResult := by
  intro b a n6 s
  exact ⟨encodedAs_enc2 rfl (by decide) rfl, s.afterStore b a n6, exec_st b a n6 s,
    s.dataWord_afterStore_self b a n6, fun _ => s.dataWord_afterStore_of_ne b a n6, fun _ => rfl,
    s.pc_afterStore b a n6, regsUnchanged_afterStore s b a n6, portsUnchanged_afterStore s b a n6, rfl⟩

end Sys2Proof.Machine
end

section
/-! PROOFS of the family 45_branches: where BZ and BNZ go and what they leave unchanged, and the branch to itself. -/

namespace Sys2Proof

/-! ### The encoding of the 1-Reg format -/

/-- The lines "Encoding" of an instruction of the 1-Reg format under the mask of cccc and e (30_encoding.md R64). -/
theorem encodedAs_enc1 {i : Instr} {c : BitVec 4} {r : RegNum} {e : BitVec 1} {n8 : Imm8} {bits : Word}
    (hword : encode i = enc1 c r e n8) (hbits : enc1 c 0#3 e 0#8 = bits) (hi : i.wellFormed = true) :
    EncodedAs i 0xF100#16 bits (c ++ r ++ e ++ n8) :=
  encodedAs_of_round_trip (by rw [hword, Laws.EncodesToRow.enc1_mask, hbits]) hword (decode_encode hi)

end Sys2Proof

namespace Sys2Proof.Machine

/-! ### Where a branch goes (45_branches.md R120) -/

/-- Extending the sign keeps the integer reading of the displacement (00_scope.md R10). -/
theorem toInt_sext8 (n8 : Imm8) : (sext8 n8).toInt = n8.toInt :=
  BitVec.toInt_signExtend_of_le (by decide)

/-- The target is a sum modulo 2^16 with the displacement read as an integer. -/
theorem State.natCast_toNat_branchTarget (s : State) (n8 : Imm8) :
    ((s.branchTarget n8).toNat : Int) = (s.pc.toNat + n8.toInt) % 65536 := by
  rw [State.branchTarget, natCast_toNat_add_toInt, toInt_sext8]

/-- An instruction that ends in a branch completes, taken or not, and nothing but the pc changes. -/
theorem exists_next_of_branchIf {i : Instr} {s : State} {taken : Bool} {n8 : Imm8}
    (h : exec i s = s.branchIf taken n8) :
    ∃ t, exec i s = .next t ∧
      (taken = true → (t.pc.toNat : Int) = (s.pc.toNat + n8.toInt) % 65536) ∧
      (taken = false → t.pc = s.pc + 1#16) ∧ WritesOnlyPc s t := by
  cases taken with
  | true => exact ⟨_, h, fun _ => s.natCast_toNat_branchTarget n8, nofun, .setPc s _⟩
  | false => exact ⟨_, h, nofun, fun _ => rfl, .setPc s _⟩

theorem isZeroWord_eq_true_iff (x : Word) : isZeroWord x = true ↔ x = 0x0000#16 := decide_eq_true_iff

theorem isZeroWord_eq_false_iff (x : Word) : isZeroWord x = false ↔ x ≠ 0x0000#16 := decide_eq_false_iff_not

/-! ### A branch to itself (45_branches.md R121, R122) -/

theorem OnlySharedPortsChange.refl (s : State) : OnlySharedPortsChange s s :=
  (WritesOnlyPc.setPc s s.pc).onlySharedPortsChange

/-- With displacement 0 the target is the branch's own address. -/
theorem branchTaken_self {i : Instr} {s : State} {b : RegNum}
    (h : i = .bz b 0x00#8 ∧ s.reg b = 0x0000#16 ∨ i = .bnz b 0x00#8 ∧ s.reg b ≠ 0x0000#16) :
    BranchTaken i s s.pc := by
  have htarget : s.pc = s.pc + (0x00#8).signExtend 16 := by simp
  rcases h with ⟨hi, hz⟩ | ⟨hi, hz⟩
  · exact .inl ⟨b, 0x00#8, hi, hz, htarget⟩
  · exact .inr ⟨b, 0x00#8, hi, hz, htarget⟩

/-- A taken branch to its own address is a step of the outside world alone. -/
theorem step_of_branchTaken_self {s : State} {w : Word} (hw : s.codeWord s.pc = some w)
    (h : BranchTaken (decode w) s s.pc) : step s = .next s.outside :=
  step_of_branchTaken hw h

/-- The branch stands at the pc and is taken again after each move of the outside world, which changes neither the
program, the pc nor a register. -/
theorem exists_run_of_branchTaken_self {s : State} {w : Word} (hw : s.codeWord s.pc = some w)
    (h : BranchTaken (decode w) s s.pc) (n : Nat) :
    ∃ t, core.run n s = .next t ∧ t.pc = s.pc ∧ OnlySharedPortsChange s t ∧
      (s.portChanges = .listed [] → t = s) := by
  induction n generalizing s with
  | zero => exact ⟨s, core_run_zero s, rfl, .refl s, fun _ => rfl⟩
  | succ n ih =>
    obtain ⟨t, hrun, hpc, hframe, hsame⟩ := ih (s := s.outside) hw h
    refine ⟨t, (core_run_succ (step_of_branchTaken_self hw h) n).trans hrun, hpc,
      (onlySharedPortsChange_outside s).trans hframe, fun hquiet => ?_⟩
    rw [State.outside_of_quiet hquiet] at hsame
    exact hsame hquiet

/-! ### The obligations -/

/-- Settles O34, by induction on the number of steps. -/
theorem selfBranchHangs : Obligations.SelfBranchHangs :=
  fun _ _ _ hw h n => exists_run_of_branchTaken_self hw (branchTaken_self h) n

/-- Settles O31: the branch is taken when the register is zero. -/
theorem branchIfZeroResult : Obligations.BranchIfZeroResult := by
  intro b n8 s
  obtain ⟨t, ht, htaken, hfalls, hframe⟩ := exists_next_of_branchIf (i := .bz b n8) (s := s) rfl
  rw [isZeroWord_eq_true_iff] at htaken
  rw [isZeroWord_eq_false_iff] at hfalls
  exact ⟨encodedAs_enc1 rfl (by decide) rfl, t, ht, htaken, hfalls, hframe⟩

/-- Settles O32: the branch is taken when the register is not zero. -/
theorem branchIfNotZeroResult : Obligations.BranchIfNotZeroResult := by
  intro b n8 s
  obtain ⟨t, ht, htaken, hfalls, hframe⟩ := exists_next_of_branchIf (i := .bnz b n8) (s := s) rfl
  rw [Bool.not_eq_true', isZeroWord_eq_false_iff] at htaken
  rw [Bool.not_eq_false', isZeroWord_eq_true_iff] at hfalls
  exact ⟨encodedAs_enc1 rfl (by decide) rfl, t, ht, htaken, hfalls, hframe⟩

end Sys2Proof.Machine
end

section
/-! PROOFS of the family 46_move_immediate: the words MOVI and MOVHI write, byte by byte, and the pair that loads a
constant. -/

namespace Sys2Proof.Machine

/-! ### The bytes of the words that are written (46_move_immediate.md R125, R126) -/

/-- Extending the sign keeps the eight bits of the immediate and copies its bit 7 above them (00_scope.md R10). -/
theorem getLsbD_sext8 (n8 : Imm8) {i : Nat} (hi : i < 16) :
    (sext8 n8).getLsbD i = if i < 8 then n8.getLsbD i else n8.getLsbD 7 := by
  rw [sext8, BitVec.getLsbD_signExtend, decide_eq_true hi, Bool.true_and, BitVec.msb_eq_getLsbD_last]

theorem extractLsb'_sext8_low (n8 : Imm8) : (sext8 n8).extractLsb' 0 8 = n8 := by
  ext i hi
  rw [BitVec.getElem_extractLsb', Nat.zero_add, getLsbD_sext8 n8 (by omega), if_pos hi, BitVec.getLsbD_eq_getElem hi]

/-- A word whose high byte is eight copies of its bit 7 is its low byte with the sign extended. -/
theorem sext8_extractLsb'_low {k : Word} (hcopies : ∀ i < 16, 8 ≤ i → k.getLsbD i = k.getLsbD 7) :
    sext8 (k.extractLsb' 0 8) = k := by
  refine BitVec.eq_of_getLsbD_eq fun i hi => ?_
  rw [getLsbD_sext8 _ hi]
  split
  next hlow => simp [hlow]
  next hhigh => simp [hcopies i hi (Nat.le_of_not_lt hhigh)]

theorem extractLsb'_replaceHighByte_high (n8 : Imm8) (x : Word) : (replaceHighByte n8 x).extractLsb' 8 8 = n8 :=
  BitVec.extractLsb'_append_eq_left

theorem extractLsb'_replaceHighByte_low (n8 : Imm8) (x : Word) :
    (replaceHighByte n8 x).extractLsb' 0 8 = x.extractLsb' 0 8 :=
  BitVec.extractLsb'_append_eq_right

/-- The high byte of a constant above the sign-extended low byte of it is the constant. -/
theorem replaceHighByte_sext8 (k : Word) : replaceHighByte (k.extractLsb' 8 8) (sext8 (k.extractLsb' 0 8)) = k := by
  rw [replaceHighByte, extractLsb'_sext8_low]
  exact (BitVec.extractLsb'_append_extractLsb'_eq_extractLsb' rfl).trans BitVec.extractLsb'_eq_self

/-! ### Two writes of one register -/

theorem WritesOnlyReg.trans {d : RegNum} {s t u : State} (hst : WritesOnlyReg d s t) (htu : WritesOnlyReg d t u) :
    WritesOnlyReg d s u := by
  obtain ⟨hregs, hmem, ⟨hheld, hout, htrace, hchanges⟩, hparams⟩ := hst
  obtain ⟨hregs', hmem', ⟨hheld', hout', htrace', hchanges'⟩, hparams'⟩ := htu
  exact ⟨fun r hr => (hregs' r hr).trans (hregs r hr), fun addr => ⟨(hmem' addr).1.trans (hmem addr).1,
    (hmem' addr).2.trans (hmem addr).2⟩, ⟨fun p => (hheld' p).trans (hheld p), fun p => (hout' p).trans (hout p),
    htrace'.trans htrace, hchanges'.trans hchanges⟩, hparams'.trans hparams⟩

/-! ### The obligations -/

/-- Settles O22: MOVI leaves the low byte in place, and MOVHI puts the high byte above it. -/
theorem moviMovhiLoadsConstant : Obligations.MoviMovhiLoadsConstant := by
  intro d k s
  obtain ⟨t, ht, hlow, hpc, hframe⟩ := exists_next_of_finishReg (i := .movi d (k.extractLsb' 0 8)) (s := s) rfl
  obtain ⟨u, hu, hboth, hpc', hframe'⟩ := exists_next_of_finishReg (i := .movhi d (k.extractLsb' 8 8)) (s := t) rfl
  refine ⟨t, u, ht, hu, ?_, ?_, hframe.trans hframe', fun hcopies => ?_⟩
  · rw [hboth, hlow, replaceHighByte_sext8]
  · rw [hpc', hpc, BitVec.add_assoc]
    rfl
  · rw [hlow, sext8_extractLsb'_low hcopies]

/-- Settles O20: the word written is the immediate with its sign extended. -/
theorem moveImmediateResult : Obligations.MoveImmediateResult := by
  intro d n8 s
  obtain ⟨t, ht, hreg, hpc, hframe⟩ := exists_next_of_finishReg (i := .movi d n8) (s := s) rfl
  refine ⟨encodedAs_enc1 rfl (by decide) rfl, t, ht, ?_, fun i hi => ?_, hpc, hframe⟩
  · rw [hreg, toInt_sext8]
  · rw [hreg, getLsbD_sext8 n8 hi]

/-- Settles O21: the word written is the immediate above the low byte that Rd held. -/
theorem moveHighImmediateResult : Obligations.MoveHighImmediateResult := by
  intro d n8 s
  obtain ⟨t, ht, hreg, hpc, hframe⟩ := exists_next_of_finishReg (i := .movhi d n8) (s := s) rfl
  refine ⟨encodedAs_enc1 rfl (by decide) rfl, t, ht, ?_, ?_, hpc, hframe⟩
  · rw [hreg, extractLsb'_replaceHighByte_high]
  · rw [hreg, extractLsb'_replaceHighByte_low]

end Sys2Proof.Machine
end

section
/-! PROOFS of the family 47_input_output: what IN reads and OUT writes, and what each leaves unchanged. -/

namespace Sys2Proof.Machine

/-! ### The next state of IN (47_input_output.md R130) -/

/-- The state after an IN. -/
def State.afterIn (s : State) (d : RegNum) (p : Port) : State :=
  ((s.record (.input p (s.inRead p))).setReg d (s.inRead p)).advance

theorem exec_inPort (d : RegNum) (p : Port) (s : State) : exec (.inPort d p) s = .next (s.afterIn d p) := rfl

section
variable (s : State) (d : RegNum) (p : Port)

@[simp] theorem State.reg_afterIn_self : (s.afterIn d p).reg d = s.inRead p := by
  rw [State.afterIn, State.reg_advance, State.reg_setReg_self]

@[simp] theorem State.trace_afterIn : (s.afterIn d p).trace = s.trace ++ [.input p (s.inRead p)] := rfl

/-- Once the event is recorded, an IN writes one register. -/
theorem writesOnlyReg_record_afterIn : WritesOnlyReg d (s.record (.input p (s.inRead p))) (s.afterIn d p) :=
  writesOnlyReg_setReg_advance _ d _

end

/-! ### The ports after OUT (47_input_output.md R131) -/

section
variable (s : State) (b : RegNum) {p q : Port}

theorem State.outPort_afterOut_of_ne (h : q ≠ p) : (s.afterOut b p).outPort q = s.outPort q := by
  simp [State.afterOut, State.outPort_outWrite, h.symm]

/-- An OUT reaches no input port but its own, even where the two spaces are one. -/
theorem State.heldInput_afterOut_of_ne (h : q ≠ p) : (s.afterOut b p).heldInput q = s.heldInput q := by
  simp [State.afterOut, State.heldInput_outWrite, h.symm]

/-- Where the port is one register, an OUT is what INPUT then holds (10_state.md R33). -/
theorem State.heldInput_afterOut_of_shared {s : State} (h : s.ioShared p = true) :
    (s.afterOut b p).heldInput p = some (s.reg b) := by
  rw [State.heldInput_of_shared (by rw [State.ioShared_afterOut, h]), State.outPort_afterOut_self]

end

/-! ### The obligations -/

/-- Settles O36: Rd takes `InRead` of the port, and recording the event changes nothing but the trace. -/
theorem inputResult : Obligations.InputResult := by
  intro d p s
  obtain ⟨hregs, hmem, ⟨hheld, hout, -, hchanges⟩, hparams⟩ := writesOnlyReg_record_afterIn s d p
  refine ⟨encodedAs_enc1 rfl (by decide) rfl, s.afterIn d p, exec_inPort d p s, fun hp => ?_, fun hp => ?_, ?_, rfl,
    hregs, hmem, hheld, hout, hchanges, hparams⟩
  · rw [State.reg_afterIn_self, State.inRead_of_shared hp]
  · rw [State.reg_afterIn_self, State.inRead_of_distinct hp]
  · rw [State.trace_afterIn, State.reg_afterIn_self]

/-- Settles O37: the one cell an OUT writes is an input port's too exactly where the port is one register. -/
theorem outputResult : Obligations.OutputResult := fun b p s =>
  ⟨encodedAs_enc1 rfl (by decide) rfl, s.afterOut b p, exec_outPort b p s, s.outPort_afterOut_self b p,
    fun _ => s.outPort_afterOut_of_ne b, fun _ => s.heldInput_afterOut_of_ne b,
    State.heldInput_afterOut_of_distinct b p, State.heldInput_afterOut_of_shared b, rfl, rfl, fun _ => rfl,
    fun _ => ⟨rfl, rfl⟩, rfl, rfl⟩

end Sys2Proof.Machine
end

section
/-! PROOFS of the families 60_exceptions and 70_reset_and_hazards, and of what belongs to no other: the two stops, the
launch, the end of a run, and the ports between two instructions and over a step. -/

namespace Sys2Proof.Machine

/-! ### The two stops (60_exceptions.md R141, R143) -/

theorem State.codeCell_of_unified {s : State} (h : s.params.memoryOrganisation = .unified) (addr : Word) :
    s.codeCell addr = .mem addr := by
  simp [State.codeCell, h]

theorem State.codeCell_of_harvard {s : State} (h : s.params.memoryOrganisation = .harvard) (addr : Word) :
    s.codeCell addr = .imem addr := by
  simp [State.codeCell, h]

/-- LD from a word that nothing has written stops (10_state.md R36). -/
theorem exec_ld_of_unwritten {s : State} {a : RegNum} {n6 : Imm6}
    (h : s.dataWord (s.effectiveAddress a n6) = none) (d : RegNum) :
    exec (.ld d a n6) s = .fault (.unwrittenRead (.mem (s.effectiveAddress a n6))) := by
  simp [exec, execLd, h, raiseUnwritten]

/-! ### The last OUT to a port in a trace -/

/-- One more event is the last OUT to the port, or leaves the last one as it was. -/
theorem lastOutput_append (p : Port) (l : List IoEvent) (e : IoEvent) :
    lastOutput p (l ++ [e]) = (lastOutput p [e]).or (lastOutput p l) := by
  induction l with
  | nil => simp [lastOutput]
  | cons x rest ih => cases x <;> simp [lastOutput, ih, Option.or_assoc]

theorem lastOutput_append_input (p q : Port) (l : List IoEvent) (v : Word) :
    lastOutput p (l ++ [.input q v]) = lastOutput p l := by
  simp [lastOutput_append, lastOutput]

theorem lastOutput_append_output (p q : Port) (l : List IoEvent) (v : Word) :
    lastOutput p (l ++ [.output q v]) = if q = p then some v else lastOutput p l := by
  rw [lastOutput_append]
  by_cases h : q = p <;> simp [lastOutput, h]

/-! ### The output ports and the trace over a step -/

/-- The outside world moves only ports that are one register, of which the invariant says nothing. -/
theorem OutputsFollowTrace.outside {s : State} (h : OutputsFollowTrace s) : OutputsFollowTrace s.outside := by
  intro p hp
  have hmove : s.outsideMove p = none := State.outsideMove_of_distinct hp
  rw [State.outPort_outside, hmove, Option.none_or, State.outside_trace, h p hp]

/-- An OUT writes its port and records the event; the other instructions do neither. -/
theorem Effect.outputsFollowTrace {i : Instr} {s t : State} (h : Effect i s t) (hs : OutputsFollowTrace s) :
    OutputsFollowTrace t := by
  cases h with
  | writesReg _ _ _ _ | stores _ _ _ _ | jumps _ _ | falls _ => exact hs.congr rfl rfl rfl
  | reads d q _ =>
    intro p hp
    have htrace : lastOutput p (s.trace ++ [.input q (s.inRead q)]) = lastOutput p s.trace :=
      lastOutput_append_input p q s.trace _
    exact (hs p hp).trans htrace.symm
  | writesPort b q _ =>
    intro p hp
    have hport : (s.outWrite q (s.reg b)).outPort p = if q = p then some (s.reg b) else lastOutput p s.trace := by
      rw [State.outPort_outWrite, hs p hp]
    exact hport.trans (lastOutput_append_output p q s.trace _).symm

/-- An instruction that adds an OUT event leaves the value of the event in the port. -/
theorem Effect.outPort_of_output_event {i : Instr} {s t : State} {p : Port} {v : Word} (h : Effect i s t)
    (hevent : t.trace = s.trace ++ [.output p v]) : t.outPort p = some v := by
  cases h with
  | writesReg _ _ _ _ | stores _ _ _ _ | jumps _ _ | falls _ | reads _ _ _ => simp at hevent
  | writesPort b q _ =>
    obtain ⟨rfl, rfl⟩ : q = p ∧ s.reg b = v := by simpa using hevent
    exact s.outPort_afterOut_self b q

/-- An instruction that adds no event of an OUT to the port leaves the port as it is. -/
theorem Effect.outPort_eq_of_no_output_event {i : Instr} {s t : State} {p : Port} (h : Effect i s t)
    (hnone : ∀ v, t.trace ≠ s.trace ++ [.output p v]) : t.outPort p = s.outPort p := by
  cases h with
  | writesReg _ _ _ _ | stores _ _ _ _ | jumps _ _ | falls _ | reads _ _ _ => rfl
  | writesPort b q _ =>
    have hqp : p ≠ q := by
      rintro rfl
      exact hnone _ rfl
    exact s.outPort_afterOut_of_ne b hqp

/-! ### Listed answers (70_reset_and_hazards.md R161) -/

/-- A listed answer is what an IN from the port reads, whatever the port holds. -/
theorem State.inRead_of_listedAnswer {s : State} {p : Port} {v : Word} (hp : s.ioShared p = false)
    (h : s.listedAnswer p = some v) : s.inRead p = v := by
  rw [State.inRead_of_distinct hp, h, Option.some_or, Option.getD_some]

/-- An IN uses up one answer of its own port and none of another. -/
theorem State.inputCount_afterIn (s : State) (d : RegNum) (q p : Port) :
    inputCount p (s.afterIn d q).trace = inputCount p s.trace + if q = p then 1 else 0 := by
  rw [State.trace_afterIn, inputCount_append]
  simp [inputCount]

/-! ### The end of a run (70_reset_and_hazards.md R163) -/

theorem State.over_iff (s : State) : s.over = true ↔ s.params.endPc = some s.pc := by
  simp [State.over]

/-- A run of no steps is over only where it starts. -/
theorem runToEnd_zero_over {s f : State} (h : runToEnd 0 s = .over f) : s.over = true ∧ f = s := by
  unfold runToEnd at h
  split at h
  next hover => cases h; exact ⟨hover, rfl⟩
  next => cases h

/-- A run that is over was so where it started, or took a step from a state that was not at END_PC. -/
theorem runToEnd_succ_over {n : Nat} {s f : State} (h : runToEnd (n + 1) s = .over f) :
    (s.over = true ∧ f = s) ∨ (s.over = false ∧ ∃ t, step s = .next t ∧ runToEnd n t = .over f) := by
  unfold runToEnd at h
  split at h
  next hover => cases h; exact .inl ⟨hover, rfl⟩
  next hnot =>
    split at h
    next t hstep => exact .inr ⟨by simpa using hnot, t, hstep, h⟩
    all_goals cases h

/-- No state before the `k`-th of the run from `s` is at END_PC. -/
def NotOverBefore (k : Nat) (s : State) : Prop :=
  ∀ j < k, ∀ u, core.run j s = .next u → u.params.endPc ≠ some u.pc

theorem notOverBefore_zero (s : State) : NotOverBefore 0 s := nofun

theorem NotOverBefore.succ {k : Nat} {s t : State} (hs : s.over = false) (hstep : step s = .next t)
    (h : NotOverBefore k t) : NotOverBefore (k + 1) s := by
  intro j hj u hu
  cases j with
  | zero =>
    rw [core_run_zero] at hu
    cases hu
    rwa [← Bool.not_eq_true, State.over_iff] at hs
  | succ j =>
    rw [core_run_succ hstep] at hu
    exact h j (Nat.lt_of_succ_lt_succ hj) u hu

/-- The final state of a run is the first at END_PC, reached by the steps that the run allows. -/
theorem exists_run_of_runToEnd_over {n : Nat} {s f : State} (h : runToEnd n s = .over f) :
    f.over = true ∧ ∃ k ≤ n, core.run k s = .next f ∧ NotOverBefore k s := by
  induction n generalizing s with
  | zero =>
    obtain ⟨hover, rfl⟩ := runToEnd_zero_over h
    exact ⟨hover, 0, Nat.le_refl 0, core_run_zero f, notOverBefore_zero f⟩
  | succ n ih =>
    rcases runToEnd_succ_over h with ⟨hover, rfl⟩ | ⟨hnot, t, hstep, hrest⟩
    · exact ⟨hover, 0, Nat.zero_le _, core_run_zero f, notOverBefore_zero f⟩
    · obtain ⟨hover, k, hk, hrun, hbefore⟩ := ih hrest
      exact ⟨hover, k + 1, Nat.succ_le_succ hk, (core_run_succ hstep k).trans hrun, hbefore.succ hnot hstep⟩

/-- The parameters, END_PC among them, are fixed during a run (00_scope.md R6). -/
theorem runToEnd_over_params_eq {n : Nat} {s f : State} (h : runToEnd n s = .over f) : f.params = s.params := by
  induction n generalizing s with
  | zero => rw [(runToEnd_zero_over h).2]
  | succ n ih =>
    rcases runToEnd_succ_over h with ⟨-, rfl⟩ | ⟨-, t, hstep, hrest⟩
    · rfl
    · exact (ih hrest).trans (step_params_eq hstep)

/-! ### Loading a list of entries (70_reset_and_hazards.md R161)

Each part of a launch loads its entries one after the other. What can be read of the state afterwards is what the
last entry for that place wrote, or what could be read before. -/

section
variable {α β : Type} {load : State → α → State} (read : State → β)

/-- A reading that no entry of the list changes. -/
theorem foldl_load_reading_eq (entries : List α) (s : State)
    (hkeep : ∀ e ∈ entries, ∀ t, read (load t e) = read t) : read (entries.foldl load s) = read s :=
  List.foldlRecOn (motive := fun t => read t = read s) entries load rfl fun t ht e he => (hkeep e he t).trans ht

/-- A reading that one entry fixes and none after it changes. -/
theorem foldl_load_reading_of_last (before after : List α) {e : α} {x : β} (s : State)
    (hfix : ∀ t, read (load t e) = x) (hkeep : ∀ e ∈ after, ∀ t, read (load t e) = read t) :
    read ((before ++ e :: after).foldl load s) = x := by
  rw [List.foldl_append, List.foldl_cons, foldl_load_reading_eq read after _ hkeep, hfix]

end

/-! ### What a launch gives and no load changes -/

/-- The pc, the parameters, the outside world's moves and the trace. -/
def State.control (s : State) : Word × Params × PortChanges × List IoEvent :=
  (s.pc, s.params, s.portChanges, s.trace)

section
variable (s : State)

theorem State.control_loadCode (image : List (Word × Word)) : (s.loadCode image).control = s.control :=
  foldl_load_reading_eq State.control image s fun _ _ _ => by simp [State.control]

theorem State.control_loadData (image : List (Word × Word)) : (s.loadData image).control = s.control :=
  foldl_load_reading_eq State.control image s fun _ _ _ => rfl

theorem State.control_loadRegs (regs : List (RegNum × Word)) : (s.loadRegs regs).control = s.control :=
  foldl_load_reading_eq State.control regs s fun _ _ _ => rfl

theorem State.control_loadInputs (inputs : List (Port × Word)) : (s.loadInputs inputs).control = s.control :=
  foldl_load_reading_eq State.control inputs s fun _ _ _ => rfl

theorem State.params_of_control {s t : State} (h : t.control = s.control) : t.params = s.params :=
  congrArg (fun c => c.2.1) h

end

theorem Launch.control_initial (l : Launch) : l.initial.control = (l.resetPc, l.params, l.portChanges, []) := by
  rw [Launch.initial, State.control_loadInputs, State.control_loadRegs, State.control_loadData,
    State.control_loadCode]
  rfl

theorem Launch.params_initial (l : Launch) : l.initial.params = l.params :=
  State.params_of_control (s := l.empty) l.control_initial

/-! ### The memories of a launch -/

section
variable (s : State) {addr v : Word}

theorem State.codeWord_loadCode_of_last (before after : List (Word × Word)) (hlast : ∀ kv ∈ after, kv.1 ≠ addr) :
    (s.loadCode (before ++ (addr, v) :: after)).codeWord addr = some v :=
  foldl_load_reading_of_last (State.codeWord · addr) before after s
    (fun t => by rw [State.codeWord_placeCode, if_pos rfl])
    (fun kv hkv t => by rw [State.codeWord_placeCode, if_neg (hlast kv hkv)])

theorem State.codeWord_loadCode_of_not_listed {image : List (Word × Word)} (h : ∀ kv ∈ image, kv.1 ≠ addr) :
    (s.loadCode image).codeWord addr = s.codeWord addr :=
  foldl_load_reading_eq (State.codeWord · addr) image s
    fun kv hkv t => by rw [State.codeWord_placeCode, if_neg (h kv hkv)]

theorem State.dataWord_loadData_of_last (before after : List (Word × Word)) (hlast : ∀ kv ∈ after, kv.1 ≠ addr) :
    (s.loadData (before ++ (addr, v) :: after)).dataWord addr = some v :=
  foldl_load_reading_of_last (State.dataWord · addr) before after s
    (fun t => by rw [State.dataWord_writeData, if_pos rfl])
    (fun kv hkv t => by rw [State.dataWord_writeData, if_neg (hlast kv hkv)])

theorem State.dataWord_loadData_of_not_listed {image : List (Word × Word)} (h : ∀ kv ∈ image, kv.1 ≠ addr) :
    (s.loadData image).dataWord addr = s.dataWord addr :=
  foldl_load_reading_eq (State.dataWord · addr) image s
    fun kv hkv t => by rw [State.dataWord_writeData, if_neg (h kv hkv)]

/-- A data write to another address is seen by no fetch from this one, under either memory organisation. -/
theorem State.codeWord_writeData_of_ne {addr b : Word} (h : addr ≠ b) :
    (s.writeData addr v).codeWord b = s.codeWord b := by
  cases horg : s.params.memoryOrganisation with
  | unified => rw [State.codeWord_writeData_unified s addr b v horg, if_neg h]
  | harvard => exact State.codeWord_writeData_harvard s addr b v horg

theorem State.imem_loadData (image : List (Word × Word)) : (s.loadData image).imem = s.imem :=
  foldl_load_reading_eq State.imem image s fun _ _ _ => rfl

/-- Under harvard a data load is seen by no fetch, and under unified only at the addresses it lists. -/
theorem State.codeWord_loadData {image : List (Word × Word)}
    (h : s.params.memoryOrganisation = .unified → ∀ kv ∈ image, kv.1 ≠ addr) :
    (s.loadData image).codeWord addr = s.codeWord addr := by
  cases horg : s.params.memoryOrganisation with
  | unified =>
    exact foldl_load_reading_eq (State.codeWord · addr) image s
      fun kv hkv t => t.codeWord_writeData_of_ne (h horg kv hkv)
  | harvard =>
    have horg' : (s.loadData image).params.memoryOrganisation = .harvard := by
      rw [State.params_of_control (s.control_loadData image), horg]
    rw [State.codeWord_of_harvard horg', State.codeWord_of_harvard horg, State.imem_loadData]

theorem State.dataWord_placeCode_of_harvard {s : State} (h : s.params.memoryOrganisation = .harvard)
    (addr v b : Word) : (s.placeCode addr v).dataWord b = s.dataWord b := by
  simp [State.placeCode, h, State.dataWord]

/-- Under harvard a code load does not reach the data memory. -/
theorem State.dataWord_loadCode_of_harvard {s : State} (h : s.params.memoryOrganisation = .harvard)
    (image : List (Word × Word)) (b : Word) : (s.loadCode image).dataWord b = s.dataWord b := by
  induction image generalizing s with
  | nil => rfl
  | cons kv rest ih =>
    have h' : (s.placeCode kv.1 kv.2).params.memoryOrganisation = .harvard := by rw [State.placeCode_params, h]
    exact (ih h').trans (State.dataWord_placeCode_of_harvard h kv.1 kv.2 b)

theorem State.dataWord_eq_codeWord_of_unified {s : State} (h : s.params.memoryOrganisation = .unified) (b : Word) :
    s.dataWord b = s.codeWord b := by
  simp [State.dataWord, State.codeWord, h]

end

/-! ### The registers and the ports of a launch -/

section
variable (s : State) {r : RegNum} {p : Port} {v : Word}

theorem State.reg_loadRegs_of_last (before after : List (RegNum × Word)) (hlast : ∀ kv ∈ after, kv.1 ≠ r) :
    (s.loadRegs (before ++ (r, v) :: after)).reg r = v :=
  foldl_load_reading_of_last (State.reg · r) before after s (fun t => t.reg_setReg_self r v)
    (fun kv hkv t => t.reg_setReg_of_ne kv.2 (hlast kv hkv).symm)

theorem State.reg_loadRegs_of_not_listed {regs : List (RegNum × Word)} (h : ∀ kv ∈ regs, kv.1 ≠ r) :
    (s.loadRegs regs).reg r = s.reg r :=
  foldl_load_reading_eq (State.reg · r) regs s fun kv hkv t => t.reg_setReg_of_ne kv.2 (h kv hkv).symm

theorem State.heldInput_loadInputs_of_last (before after : List (Port × Word)) (hlast : ∀ kv ∈ after, kv.1 ≠ p) :
    (s.loadInputs (before ++ (p, v) :: after)).heldInput p = some v :=
  foldl_load_reading_of_last (State.heldInput · p) before after s
    (fun t => by rw [State.heldInput_presentInput, if_pos rfl])
    (fun kv hkv t => by rw [State.heldInput_presentInput, if_neg (hlast kv hkv)])

theorem State.heldInput_loadInputs_of_not_listed {inputs : List (Port × Word)} (h : ∀ kv ∈ inputs, kv.1 ≠ p) :
    (s.loadInputs inputs).heldInput p = s.heldInput p :=
  foldl_load_reading_eq (State.heldInput · p) inputs s
    fun kv hkv t => by rw [State.heldInput_presentInput, if_neg (h kv hkv)]

theorem State.outPort_loadInputs_of_not_listed {inputs : List (Port × Word)} (h : ∀ kv ∈ inputs, kv.1 ≠ p) :
    (s.loadInputs inputs).outPort p = s.outPort p :=
  foldl_load_reading_eq (State.outPort · p) inputs s
    fun kv hkv t => by rw [State.outPort_presentInput, if_neg fun hp => h kv hkv hp.2]

end

@[simp] theorem State.outPort_placeCode (s : State) (addr v : Word) (p : Port) :
    (s.placeCode addr v).outPort p = s.outPort p := by
  simp [State.outPort]

@[simp] theorem State.heldInput_placeCode (s : State) (addr v : Word) (p : Port) :
    (s.placeCode addr v).heldInput p = s.heldInput p := by
  simp [State.heldInput, State.ioShared]

/-! ### What can be read of the launch state -/

section
variable (l : Launch)

/-- The launch with its memories and registers loaded, and no port yet. -/
def Launch.beforeInputs : State := ((l.empty.loadCode l.image).loadData l.dataImage).loadRegs l.regs

theorem Launch.initial_eq_loadInputs : l.initial = l.beforeInputs.loadInputs l.inputs := rfl

/-- A reading that no write of memory or of a register changes is still that of the empty machine. -/
theorem Launch.reading_beforeInputs_eq {β : Type} (read : State → β)
    (hcode : ∀ t addr v, read (State.placeCode t addr v) = read t)
    (hdata : ∀ t addr v, read (State.writeData t addr v) = read t)
    (hreg : ∀ t r v, read (State.setReg t r v) = read t) : read l.beforeInputs = read l.empty :=
  calc read l.beforeInputs
    _ = read ((l.empty.loadCode l.image).loadData l.dataImage) :=
      foldl_load_reading_eq read l.regs _ fun _ _ t => hreg t _ _
    _ = read (l.empty.loadCode l.image) := foldl_load_reading_eq read l.dataImage _ fun _ _ t => hdata t _ _
    _ = read l.empty := foldl_load_reading_eq read l.image _ fun _ _ t => hcode t _ _

theorem Launch.outPort_beforeInputs (p : Port) : l.beforeInputs.outPort p = none :=
  l.reading_beforeInputs_eq (State.outPort · p) (fun t addr v => t.outPort_placeCode addr v p)
    (fun _ _ _ => rfl) (fun _ _ _ => rfl)

theorem Launch.heldInput_beforeInputs (p : Port) : l.beforeInputs.heldInput p = none := by
  have hheld : l.beforeInputs.heldInput p = l.empty.heldInput p :=
    l.reading_beforeInputs_eq (State.heldInput · p) (fun t addr v => t.heldInput_placeCode addr v p)
      (fun _ _ _ => rfl) (fun _ _ _ => rfl)
  have hempty : l.empty.heldInput p = none := ite_self none
  rw [hheld, hempty]

/-- What a reading of the memories finds after the registers and the ports are loaded. -/
theorem Launch.memory_reading_initial_eq {β : Type} (read : State → β)
    (hreg : ∀ t r v, read (State.setReg t r v) = read t)
    (hport : ∀ t p v, read (State.presentInput t p v) = read t) :
    read l.initial = read ((l.empty.loadCode l.image).loadData l.dataImage) :=
  calc read l.initial
    _ = read l.beforeInputs := foldl_load_reading_eq read l.inputs _ fun _ _ t => hport t _ _
    _ = _ := foldl_load_reading_eq read l.regs _ fun _ _ t => hreg t _ _

theorem Launch.dataWord_initial (addr : Word) :
    l.initial.dataWord addr = ((l.empty.loadCode l.image).loadData l.dataImage).dataWord addr :=
  l.memory_reading_initial_eq (State.dataWord · addr) (fun _ _ _ => rfl) (fun _ _ _ => rfl)

/-- A fetch reads what the code load wrote, where the data load does not write the same cell. -/
theorem Launch.codeWord_initial {l : Launch} {addr : Word}
    (h : l.params.memoryOrganisation = .unified → ∀ kv ∈ l.dataImage, kv.1 ≠ addr) :
    l.initial.codeWord addr = (l.empty.loadCode l.image).codeWord addr := by
  have hparams : (l.empty.loadCode l.image).params = l.params :=
    State.params_of_control (l.empty.control_loadCode l.image)
  calc l.initial.codeWord addr
    _ = ((l.empty.loadCode l.image).loadData l.dataImage).codeWord addr :=
      l.memory_reading_initial_eq (State.codeWord · addr) (fun _ _ _ => rfl) (fun _ _ _ => rfl)
    _ = _ := State.codeWord_loadData _ (by rwa [hparams])

theorem Launch.codeWord_empty (addr : Word) : l.empty.codeWord addr = none := by
  unfold State.codeWord
  split <;> rfl

theorem Launch.reg_initial (r : RegNum) : l.initial.reg r = l.beforeInputs.reg r :=
  foldl_load_reading_eq (State.reg · r) l.inputs _ fun _ _ _ => rfl

/-- Before the registers are loaded each of them is 0 (log 1). -/
theorem Launch.reg_loadData (r : RegNum) :
    ((l.empty.loadCode l.image).loadData l.dataImage).reg r = 0x0000#16 :=
  calc ((l.empty.loadCode l.image).loadData l.dataImage).reg r
    _ = (l.empty.loadCode l.image).reg r := foldl_load_reading_eq (State.reg · r) l.dataImage _ fun _ _ _ => rfl
    _ = l.empty.reg r :=
      foldl_load_reading_eq (State.reg · r) l.image _ fun kv _ t => t.reg_placeCode kv.1 kv.2 r
    _ = 0x0000#16 := State.reg_reset r

end

/-! ### The obligations -/

/-- Settles O46: of the outside world's move and the effect of the instruction, only an OUT reaches a port with a
register of its own, and it records the value it writes; a shared port is moved first and then overwritten by an OUT. -/
theorem stepKeepsOutputsAtLastOut : Obligations.StepKeepsOutputsAtLastOut := by
  intro s t hs hstep
  obtain ⟨w, -, heff⟩ := step_next_effect hstep
  refine ⟨heff.outputsFollowTrace hs.outside, fun p _ => ⟨fun v hevent => ?_, fun hnone => ?_⟩⟩
  · exact heff.outPort_of_output_event hevent
  · rw [heff.outPort_eq_of_no_output_event hnone, State.outPort_outside]

/-- Settles O43: a fetch has one way to stop and `exec` two, and the word named is the one fetched. -/
theorem stopsAreTheTwoModelFaults : Obligations.StopsAreTheTwoModelFaults := by
  intro s
  cases hw : s.codeWord s.pc with
  | none =>
    rw [step_of_unwritten hw]
    refine ⟨nofun, fun f hf => ?_⟩
    cases hf
    exact .inl ⟨rfl, rfl⟩
  | some w =>
    rw [step_of_codeWord hw]
    refine ⟨exec_not_refused _ _, fun f hf => .inr ⟨w, rfl, ?_⟩⟩
    have hcases := exec_fault_cases hf
    rw [encode_decode] at hcases
    exact hcases

/-- Settles O50, by induction on the steps allowed. -/
theorem runIsOverAtEndPc : Obligations.RunIsOverAtEndPc := by
  intro n s f h
  obtain ⟨hover, hrun⟩ := exists_run_of_runToEnd_over h
  exact ⟨(State.over_iff f).mp hover, hrun⟩

/-- Settles O51: the final state of a run that is over would have the END_PC that the first state lacks. -/
theorem noEndPcIsNeverOver : Obligations.NoEndPcIsNeverOver := by
  intro n s f hnone h
  have hend : f.params.endPc = some f.pc := (runIsOverAtEndPc n s f h).1
  rw [runToEnd_over_params_eq h, hnone] at hend
  cases hend

/-- Settles O49, load by load: the last entry for a place is what can be read there, and the loads of other parts of
the state do not reach it. -/
theorem launchState : Obligations.LaunchState := by
  intro l
  have hparams : l.initial.params = l.params := l.params_initial
  have hinv : MeetsInvariants l.initial := l.initial_meetsInvariants
  obtain ⟨hpc, -, hchanges, htrace⟩ : l.initial.pc = l.resetPc ∧ l.initial.params = l.params ∧
      l.initial.portChanges = l.portChanges ∧ l.initial.trace = [] := by
    simpa [State.control] using l.control_initial
  refine ⟨⟨hpc, hparams, hchanges, htrace, hinv.wf⟩, ?code, ?data, ?codeElsewhere, ?dataElsewhere, ?unified,
    ?input, ?inputElsewhere, ?output, ?reg, ?regElsewhere⟩
  case code =>
    intro before after addr v himage hlast hdata
    rw [Launch.codeWord_initial hdata, himage, State.codeWord_loadCode_of_last _ before after hlast]
  case data =>
    intro before after addr v himage hlast
    rw [l.dataWord_initial, himage, State.dataWord_loadData_of_last _ before after hlast]
  case codeElsewhere =>
    intro addr hcode hdata
    rw [Launch.codeWord_initial hdata, State.codeWord_loadCode_of_not_listed _ hcode, l.codeWord_empty]
  case dataElsewhere =>
    intro hharvard addr hdata
    rw [l.dataWord_initial, State.dataWord_loadData_of_not_listed _ hdata,
      State.dataWord_loadCode_of_harvard (s := l.empty) hharvard]
    rfl
  case unified =>
    intro hunified addr
    exact State.dataWord_eq_codeWord_of_unified (by rw [hparams, hunified]) addr
  case input =>
    intro before after p v hinputs hlast
    rw [l.initial_eq_loadInputs, hinputs, State.heldInput_loadInputs_of_last _ before after hlast]
  case inputElsewhere =>
    intro p hinputs
    rw [l.initial_eq_loadInputs, State.heldInput_loadInputs_of_not_listed _ hinputs,
      State.outPort_loadInputs_of_not_listed _ hinputs]
    exact ⟨l.heldInput_beforeInputs p, l.outPort_beforeInputs p⟩
  case output =>
    intro p hp
    rw [hinv.outputs p hp, htrace]
    rfl
  case reg =>
    intro before after r v hregs hlast
    rw [l.reg_initial, Launch.beforeInputs, hregs, State.reg_loadRegs_of_last _ before after hlast]
  case regElsewhere =>
    intro r hregs
    rw [l.reg_initial, Launch.beforeInputs, State.reg_loadRegs_of_not_listed _ hregs, l.reg_loadData]

/-- Settles O52: a listed move is the head of the list, and the rest stays for the steps to come. -/
theorem outsideChangesOnlySharedPorts : Obligations.OutsideChangesOnlySharedPorts := by
  intro s
  refine ⟨onlySharedPortsChange_outside s, rfl, fun p hp => ⟨s.outPort_outside p, ?_⟩, fun p now rest hp hlist => ?_,
    State.outside_of_quiet⟩
  · exact State.heldInput_of_shared (by rw [State.ioShared_outside, hp])
  · simp [State.outsideMove, hp, hlist, PortChanges.afterStep]

/-- Settles O53: the place in the list of answers is the count of the INs from the port, which the IN from the other
port leaves at one more. -/
theorem inputsAnsweredInTurn : Obligations.InputsAnsweredInTurn := by
  intro d e f p q v w s hp hqp hfirst hsecond
  let t := s.afterIn d p
  let u := t.afterIn e q
  have hcount : inputCount p u.trace = inputCount p s.trace + 1 := by
    simp only [u, t, State.inputCount_afterIn, if_neg hqp, if_pos, Nat.add_zero]
  have hnext : u.listedAnswer p = some w := by
    rw [State.listedAnswer, hcount]
    exact hsecond
  refine ⟨t, u, u.afterIn f p, exec_inPort d p s, ?_, exec_inPort e q t, exec_inPort f p u, ?_⟩
  · exact (s.reg_afterIn_self d p).trans (State.inRead_of_listedAnswer hp hfirst)
  · exact (u.reg_afterIn_self f p).trans (State.inRead_of_listedAnswer hp hnext)

/-- Settles O9: the cell named is the one of the memory the fetch reads. -/
theorem fetchOfUnwrittenWordStops : Obligations.FetchOfUnwrittenWordStops := by
  intro s hnone
  rw [step_of_unwritten hnone]
  refine ⟨fun hunified => ?_, fun hharvard => ?_⟩
  · rw [State.codeCell_of_unified hunified]
  · rw [State.codeCell_of_harvard hharvard]

/-- Settles O25, from the meaning of LD. -/
theorem loadOfUnwrittenWordStops : Obligations.LoadOfUnwrittenWordStops :=
  fun d _ _ _ hnone => exec_ld_of_unwritten hnone d

/-- Settles O47: after reset no space holds a value and the trace is empty. -/
theorem resetMeetsInvariants : Obligations.ResetMeetsInvariants :=
  ⟨State.reset_wf, (sharedPortsAgree_iff _).mpr fun _ _ => rfl, fun p _ => State.outPort_reset p⟩

/-- Settles O1, word by word. -/
theorem specWordsDecode : Obligations.SpecWordsDecode := by
  unfold Obligations.SpecWordsDecode
  decide

end Sys2Proof.Machine
end
